-- ==== Sys2Proof/Word.lean ====
section
/-! DEFINITION. The word types of the block (spec 00_scope.md R8, R11): bytes, the 32-bit operand words and
addresses, 16-bit RGB565 words, and the 128-bit command. -/

namespace Sys2Proof

/-- One byte of memory, of a pixel buffer or of a colour channel. -/
abbrev Byte := BitVec 8

/-- An RGB565 word, 16 bits (20_memory.md R42). -/
abbrev Half := BitVec 16

/-- A 32-bit word: an operand word, an external-memory address (AW = 32), a clock value (TW = 32); 00_scope.md R8. -/
abbrev Word := BitVec 32

/-- A command as the host presents it, `CMD[127:0]` (30_encoding.md R60). -/
abbrev Command := BitVec 128

end Sys2Proof
end

