-- ==== Sys2Proof/Syntax.lean ====
section
/-! DEFINITION. The seventeen commands as data (spec 30_encoding.md R62, R66): one constructor per row of the opcode table,
its operands as the fields that the row's format names. -/

namespace Sys2Proof

/-- A colour888 operand or an RGB888 pixel (30_encoding.md R63, 20_memory.md R41): three unsigned 8-bit channels. -/
structure Rgb where
  r : Byte
  g : Byte
  b : Byte
  deriving DecidableEq, Repr

/-- The commands of 30_encoding.md R66. Coordinates, indices and addresses are whole 32-bit words, legal at every value (R65).
Words that a format leaves unused carry nothing (R68), so they are no field here. -/
inductive Instr where
  /-- `CVTMONO888 colour`, opcode 0x01, format K (40_color_reducer.md R86). -/
  | cvtmono888 (colour : Rgb)
  /-- `CVTMONO565 colour565`, opcode 0x02, format K5 (R87). -/
  | cvtmono565 (w : Half)
  /-- `CVTGRAY888 colour`, opcode 0x03, format K (R88). -/
  | cvtgray888 (colour : Rgb)
  /-- `DRAWPIX888 x, y, colour`, opcode 0x04, format P8 (R89). -/
  | drawpix888 (x y : Word) (colour : Rgb)
  /-- `DRAWPIX565 x, y, colour565`, opcode 0x05, format P5 (R90). -/
  | drawpix565 (x y : Word) (w : Half)
  /-- `GETPIX x, y`, opcode 0x06, format XY (R91). -/
  | getpix (x y : Word)
  /-- `FILLPANELRAW addr`, opcode 0x10, format M1 (41_ditherer.md R105). -/
  | fillpanelraw (addr : Word)
  /-- `SWAP`, opcode 0x20, format N (42_framebuffer_manager.md R122). -/
  | swap
  /-- `COPYFB`, opcode 0x21, format N (R123). -/
  | copyfb
  /-- `UPDATE`, opcode 0x22, format N (R124). -/
  | update
  /-- `CLEAR`, opcode 0x23, format N (R125). -/
  | clear
  /-- `SETBRT level`, opcode 0x24, format L (R126). -/
  | setbrt (level : Byte)
  /-- `FILLZONE888 idx, addr`, opcode 0x30, format ZM (43_zone_compositor.md R141). -/
  | fillzone888 (idx addr : Word)
  /-- `FILLZONE565 idx, addr`, opcode 0x31, format ZM (R142). -/
  | fillzone565 (idx addr : Word)
  /-- `FILLPAL addr, paladdr`, opcode 0x32, format M2 (R143). -/
  | fillpal (addr paladdr : Word)
  /-- `FILLPALCHG addr, paladdr, flagaddr`, opcode 0x33, format M3 (R144). -/
  | fillpalchg (addr paladdr flagaddr : Word)
  /-- `FILLSCR colour`, opcode 0x34, format K (R145). -/
  | fillscr (colour : Rgb)
  deriving DecidableEq, Repr

/-- The eleven operand formats of 30_encoding.md R62. -/
inductive Format where
  | N | K | K5 | P8 | P5 | XY | M1 | ZM | M2 | M3 | L
  deriving DecidableEq, Repr

end Sys2Proof
end

