-- ==== Sys2Proof/Machine/CommandWord.lean ====
section
/-! DEFINITION. The four 32-bit words of a 128-bit command (spec 30_encoding.md R60) and the colour fields of an operand word
(R63, R64). -/

namespace Sys2Proof.Machine

/-- `W0 = CMD[31:0]` (R60). -/
def cmdW0 (cmd : Command) : Word := cmd.extractLsb' 0 32

/-- `A = CMD[63:32]` (R60). -/
def cmdA (cmd : Command) : Word := cmd.extractLsb' 32 32

/-- `B = CMD[95:64]` (R60). -/
def cmdB (cmd : Command) : Word := cmd.extractLsb' 64 32

/-- `C = CMD[127:96]` (R60). -/
def cmdC (cmd : Command) : Word := cmd.extractLsb' 96 32

/-- The command whose words are `W0, A, B, C`: `C ++ B ++ A ++ W0` (R60). -/
def cmdOf (w0 a b c : Word) : Command := c ++ b ++ a ++ w0

/-- The opcode, `W0[7:0]` (R61). -/
def opcodeOf (w0 : Word) : Byte := w0.extractLsb' 0 8

/-- The colour888 operand of a word: `r = K[23:16]`, `g = K[15:8]`, `b = K[7:0]` (R63). -/
def colour888 (k : Word) : Rgb :=
  { r := k.extractLsb' 16 8, g := k.extractLsb' 8 8, b := k.extractLsb' 0 8 }

/-- The word that holds a colour888 operand, `0x00RRGGBB` (R63, R71). -/
def word888 (c : Rgb) : Word := (0 : Byte) ++ c.r ++ c.g ++ c.b

/-- The colour565 operand of a word, `K[15:0]` (R64). -/
def colour565 (k : Word) : Half := k.extractLsb' 0 16

/-- The word that holds a colour565 operand, `K[31:16] = 0` (R64). -/
def word565 (w : Half) : Word := (0 : Half) ++ w

/-- The `level` operand of a word, `A[7:0]` (R65). -/
def levelOf (k : Word) : Byte := k.extractLsb' 0 8

/-- The word that holds a `level` operand, `A[31:8] = 0` (R62). -/
def wordLevel (l : Byte) : Word := (0 : BitVec 24) ++ l

end Sys2Proof.Machine
end

