-- ==== Sys2Proof/WellFormed.lean ====
section
/-! DEFINITION. Which 128-bit command words are legal, read from the prose of spec 30_encoding.md R61, R62, R67 (the opcode
column, the format column and the reserved bits of each format). Every value of `Instr` is a legal command by its type: a field
has no bit that could be a reserved one. So the checks are on command words; `Decode` is written from the match and mask columns
of R66 instead, and that the two agree is a statement of its own. -/

namespace Sys2Proof

/-- The format of each opcode: the `op` and `format` columns of 30_encoding.md R66; the other 239 values have none (R67). -/
def formatOfOpcode (op : Byte) : Option Format :=
  match op.toNat with
  | 0x01 => some .K | 0x02 => some .K5 | 0x03 => some .K
  | 0x04 => some .P8 | 0x05 => some .P5 | 0x06 => some .XY
  | 0x10 => some .M1
  | 0x20 => some .N | 0x21 => some .N | 0x22 => some .N | 0x23 => some .N | 0x24 => some .L
  | 0x30 => some .ZM | 0x31 => some .ZM | 0x32 => some .M2 | 0x33 => some .M3 | 0x34 => some .K
  | _ => none

/-- The reserved operand bits of a format are all zero: the last column of 30_encoding.md R62. -/
def reservedBitsZero (f : Format) (cmd : Command) : Bool :=
  match f with
  | .K => (Machine.cmdA cmd).extractLsb' 24 8 == 0
  | .K5 => (Machine.cmdA cmd).extractLsb' 16 16 == 0
  | .P8 => (Machine.cmdC cmd).extractLsb' 24 8 == 0
  | .P5 => (Machine.cmdC cmd).extractLsb' 16 16 == 0
  | .L => (Machine.cmdA cmd).extractLsb' 8 24 == 0
  | .N | .XY | .M1 | .ZM | .M2 | .M3 => true

/-- `W0[31:8]` is zero (30_encoding.md R61). -/
def word0HighZero (cmd : Command) : Bool := (Machine.cmdW0 cmd).extractLsb' 8 24 == 0

/-- A command word is legal (30_encoding.md R67, the three clauses after "that is", negated). -/
def wellFormedCommand (cmd : Command) : Bool :=
  word0HighZero cmd &&
    match formatOfOpcode (Machine.opcodeOf (Machine.cmdW0 cmd)) with
    | none => false
    | some f => reservedBitsZero f cmd

end Sys2Proof
end

