-- ==== Sys2Proof/Decode.lean ====
section
/-! DEFINITION. Decoding a command (spec 30_encoding.md R66, R74) by the match and mask columns of the opcode table, rejecting by
name; then the encoder, written from R60 to R64; then the two entry points by table numbering. -/

namespace Sys2Proof

/-- Why a command word is illegal (30_encoding.md R67): each of the three clauses by name. All three answer `ILLEGAL`. -/
inductive Reject where
  /-- `W0[31:8] != 0`. -/
  | word0ReservedBits
  /-- `W0[7:0]` is none of the seventeen opcodes. -/
  | unknownOpcode
  /-- A reserved operand bit of the matched opcode's format is set. -/
  | operandReservedBits
  deriving DecidableEq, Repr

/-- One row of the opcode table of 30_encoding.md R66: the two 128-bit columns, and how the row's operands are taken out of the
words A, B, C (the format column, R62 to R65). -/
structure Row where
  matchBits : Command
  mask : Command
  operands : Word → Word → Word → Instr

/-- The opcode table (30_encoding.md R66): colour converter and pixel rows. -/
def pixelRows : List Row := [
  { matchBits := 0x00000000000000000000000000000001#128, mask := 0x0000000000000000FF000000FFFFFFFF#128,
    operands := fun a _ _ => .cvtmono888 (Machine.colour888 a) },
  { matchBits := 0x00000000000000000000000000000002#128, mask := 0x0000000000000000FFFF0000FFFFFFFF#128,
    operands := fun a _ _ => .cvtmono565 (Machine.colour565 a) },
  { matchBits := 0x00000000000000000000000000000003#128, mask := 0x0000000000000000FF000000FFFFFFFF#128,
    operands := fun a _ _ => .cvtgray888 (Machine.colour888 a) },
  { matchBits := 0x00000000000000000000000000000004#128, mask := 0xFF0000000000000000000000FFFFFFFF#128,
    operands := fun a b c => .drawpix888 a b (Machine.colour888 c) },
  { matchBits := 0x00000000000000000000000000000005#128, mask := 0xFFFF00000000000000000000FFFFFFFF#128,
    operands := fun a b c => .drawpix565 a b (Machine.colour565 c) },
  { matchBits := 0x00000000000000000000000000000006#128, mask := 0x000000000000000000000000FFFFFFFF#128,
    operands := fun a b _ => .getpix a b }]

/-- The opcode table (30_encoding.md R66): ditherer and framebuffer-manager rows. -/
def frameRows : List Row := [
  { matchBits := 0x00000000000000000000000000000010#128, mask := 0x000000000000000000000000FFFFFFFF#128,
    operands := fun a _ _ => .fillpanelraw a },
  { matchBits := 0x00000000000000000000000000000020#128, mask := 0x000000000000000000000000FFFFFFFF#128,
    operands := fun _ _ _ => .swap },
  { matchBits := 0x00000000000000000000000000000021#128, mask := 0x000000000000000000000000FFFFFFFF#128,
    operands := fun _ _ _ => .copyfb },
  { matchBits := 0x00000000000000000000000000000022#128, mask := 0x000000000000000000000000FFFFFFFF#128,
    operands := fun _ _ _ => .update },
  { matchBits := 0x00000000000000000000000000000023#128, mask := 0x000000000000000000000000FFFFFFFF#128,
    operands := fun _ _ _ => .clear },
  { matchBits := 0x00000000000000000000000000000024#128, mask := 0x0000000000000000FFFFFF00FFFFFFFF#128,
    operands := fun a _ _ => .setbrt (Machine.levelOf a) }]

/-- The opcode table (30_encoding.md R66): zone and panel fill rows. -/
def fillRows : List Row := [
  { matchBits := 0x00000000000000000000000000000030#128, mask := 0x000000000000000000000000FFFFFFFF#128,
    operands := fun a b _ => .fillzone888 a b },
  { matchBits := 0x00000000000000000000000000000031#128, mask := 0x000000000000000000000000FFFFFFFF#128,
    operands := fun a b _ => .fillzone565 a b },
  { matchBits := 0x00000000000000000000000000000032#128, mask := 0x000000000000000000000000FFFFFFFF#128,
    operands := fun a b _ => .fillpal a b },
  { matchBits := 0x00000000000000000000000000000033#128, mask := 0x000000000000000000000000FFFFFFFF#128,
    operands := fun a b c => .fillpalchg a b c },
  { matchBits := 0x00000000000000000000000000000034#128, mask := 0x0000000000000000FF000000FFFFFFFF#128,
    operands := fun a _ _ => .fillscr (Machine.colour888 a) }]

/-- All seventeen rows of 30_encoding.md R66. -/
def opcodeTable : List Row := pixelRows ++ frameRows ++ fillRows

/-- A command selects a row when `CMD AND mask = match` (30_encoding.md R66). -/
def Row.selects (row : Row) (cmd : Command) : Bool := (cmd &&& row.mask) == row.matchBits

/-- Which clause of 30_encoding.md R67 a command that selects no row falls under. -/
def rejectReason (cmd : Command) : Reject :=
  if !word0HighZero cmd then .word0ReservedBits
  else if (formatOfOpcode (Machine.opcodeOf (Machine.cmdW0 cmd))).isNone then .unknownOpcode
  else .operandReservedBits

/-- The decode half of the algorithm of 30_encoding.md R74: the row the command selects, or the reason there is none. -/
def decode (cmd : Command) : Except Reject Instr :=
  match opcodeTable.find? (·.selects cmd) with
  | some row => .ok (row.operands (Machine.cmdA cmd) (Machine.cmdB cmd) (Machine.cmdC cmd))
  | none => .error (rejectReason cmd)

/-- The words `W0, A, B, C` of a command, unused words and reserved bits zero (30_encoding.md R61 to R65, R71). -/
def encode : Instr → Command
  | .cvtmono888 k => Machine.cmdOf 0x01 (Machine.word888 k) 0 0
  | .cvtmono565 w => Machine.cmdOf 0x02 (Machine.word565 w) 0 0
  | .cvtgray888 k => Machine.cmdOf 0x03 (Machine.word888 k) 0 0
  | .drawpix888 x y k => Machine.cmdOf 0x04 x y (Machine.word888 k)
  | .drawpix565 x y w => Machine.cmdOf 0x05 x y (Machine.word565 w)
  | .getpix x y => Machine.cmdOf 0x06 x y 0
  | .fillpanelraw a => Machine.cmdOf 0x10 a 0 0
  | .swap => Machine.cmdOf 0x20 0 0 0
  | .copyfb => Machine.cmdOf 0x21 0 0 0
  | .update => Machine.cmdOf 0x22 0 0 0
  | .clear => Machine.cmdOf 0x23 0 0 0
  | .setbrt l => Machine.cmdOf 0x24 (Machine.wordLevel l) 0 0
  | .fillzone888 i a => Machine.cmdOf 0x30 i a 0
  | .fillzone565 i a => Machine.cmdOf 0x31 i a 0
  | .fillpal a p => Machine.cmdOf 0x32 a p 0
  | .fillpalchg a p f => Machine.cmdOf 0x33 a p f
  | .fillscr k => Machine.cmdOf 0x34 (Machine.word888 k) 0 0

/-- The command whose low `nbits` bits are those of `w`, numbered as the opcode table numbers them (bit 0 is `CMD[0]`), and whose
other bits are zero (log entry 18). -/
def tableCommand (nbits w : Nat) : Command := BitVec.ofNat 128 (w % 2 ^ nbits)

/-- The instruction the decoder reads from a table-numbered word, none where it rejects. -/
def decodeTableWord (nbits w : Nat) : Option Instr := (decode (tableCommand nbits w)).toOption

end Sys2Proof
end

