-- ==== Sys2Proof/Config.lean ====
section
/-! DEFINITION. The configuration of an instance of the block (spec 00_scope.md R5, R8), and the values the spec leaves open. -/

namespace Sys2Proof

/-- The parameter `Share` of 41_ditherer.md R102 (93_implementation_defined.md I15): how the fraction `err*w/16` becomes an
integer. Truncation toward zero is the spec's default; the floor is the alternative that R102 names. -/
inductive ShareRule where
  | towardZero
  | floor
  deriving DecidableEq, Repr

/-- The parameters of an instance (00_scope.md R5, R8): panel and zone geometry, the address given to the transport at
initialisation (carried, never looked at; its width is unstated, so it is a natural number), and the share rule. -/
structure Config where
  W : Nat
  H : Nat
  ZW : Nat
  ZH : Nat
  dispAddr : Nat
  shareRule : ShareRule
  deriving DecidableEq, Repr

/-- DISP_ADDR of the instance `State.reset` builds: OPEN in the spec (00_scope.md R8, 60_exceptions.md R172).
DESIGN CHOICE (log entry 2), safe: no body, so nothing can be proved of its value. -/
opaque Config.dispAddrAtReset : Nat

/-- What the clock input NOW reads at reset: "any value" (93_implementation_defined.md I6, 60_exceptions.md R168).
DESIGN CHOICE (log entry 4), safe: no body, so nothing can be proved of its value. -/
opaque Config.clockAtReset : Word

end Sys2Proof
end

