-- ==== Sys2Proof/Machine/Geometry.lean ====
section
/-! DEFINITION. The derived constants of an instance and the constraints its parameters meet (spec 00_scope.md R5, R6), and the
constants the source fixes (R7). -/

namespace Sys2Proof

/-- `NB = W*H/8`, bytes in one pixel buffer (00_scope.md R6). -/
def Config.nb (cfg : Config) : Nat := cfg.W * cfg.H / 8

/-- `NPIX = W*H`, pixels in the panel (R6). -/
def Config.npix (cfg : Config) : Nat := cfg.W * cfg.H

/-- `ZPR = W/ZW`, zones per row (R6). -/
def Config.zpr (cfg : Config) : Nat := cfg.W / cfg.ZW

/-- `ZROWS = H/ZH`, rows of zones (R6). -/
def Config.zrows (cfg : Config) : Nat := cfg.H / cfg.ZH

/-- `NZ = ZPR*ZROWS`, zones (R6). -/
def Config.nz (cfg : Config) : Nat := cfg.zpr * cfg.zrows

/-- The constraints on the parameters (00_scope.md R5). -/
def Config.admitted (cfg : Config) : Bool :=
  decide (1 ≤ cfg.W) && decide (8 ≤ cfg.H) && decide (cfg.H % 8 = 0) &&
  decide (1 ≤ cfg.ZW) && decide (cfg.W % cfg.ZW = 0) &&
  decide (1 ≤ cfg.ZH) && decide (cfg.H % cfg.ZH = 0) &&
  decide (3 * cfg.W * cfg.H ≤ 2 ^ 32)

namespace Machine

/-- INTERVAL, 33 milliseconds (00_scope.md R7, 42_framebuffer_manager.md R124). -/
def interval : Nat := 33

/-- Raster order over a rectangle of `w` by `h` (00_scope.md R15): `y` from 0 up, and within a row `x` from 0 up. -/
def raster (w h : Nat) : List (Nat × Nat) :=
  (List.range h).flatMap fun y => (List.range w).map fun x => (x, y)

/-- `xOff(idx) = (idx mod ZPR) * ZW` (43_zone_compositor.md R140). -/
def xOff (cfg : Config) (idx : Nat) : Nat := (idx % cfg.zpr) * cfg.ZW

/-- `yOff(idx) = (idx div ZPR) * ZH` (43_zone_compositor.md R140). -/
def yOff (cfg : Config) (idx : Nat) : Nat := (idx / cfg.zpr) * cfg.ZH

end Machine

end Sys2Proof
end

