-- ==== Sys2Proof/Machine/State.lean ====
section
/-! DEFINITION. The state of the block as plain data (spec 10_state.md), the reasons a step can stop, and reset
(70_reset_and_hazards.md R180). The spec's own state is `mode`, `last`, `wb`, `ab` (R10, R23 to R29) and the external memory
`mem` (R31); the other fields hold the configuration and the block's inputs and outputs (R32), which a step as a function of the
state alone must find in it. -/

namespace Sys2Proof.Machine

/-- MODE (10_state.md R23). -/
inductive Mode where
  | ready
  | halted
  deriving DecidableEq, Repr

/-- A pixel buffer: its bytes in index order (10_state.md R26). -/
abbrev PixelBuffer := List Byte

/-- External memory (20_memory.md R40): the bytes that differ from what an unlisted address reads as, by rising address. -/
abbrev Memory := List Host.Cell

/-- The status of a response (30_encoding.md R69); codes 0x04 to 0xFF are never produced, so they have no constructor. -/
inductive Status where
  | ok
  | range
  | illegal
  | halted
  deriving DecidableEq, Repr

/-- A response (30_encoding.md R69): status and data. -/
structure Response where
  status : Status
  data : Byte
  deriving DecidableEq, Repr

/-- A transport event (60_exceptions.md R171). -/
inductive Event where
  /-- `T_INIT(a)`: initialise with address; reset only. -/
  | tInit (addr : Nat)
  /-- `T_CLEARFB`. -/
  | tClearFb
  /-- `T_BLIT(x0, y0, data, w, h, color)`. -/
  | tBlit (x0 y0 : Nat) (data : List Byte) (w h color : Nat)
  /-- `T_PRESENT`. -/
  | tPresent
  deriving DecidableEq, Repr

/-- One move of the world outside the block (00_scope.md R9): the host presents a command while the clock reads `now`
(60_exceptions.md R168), or writes one byte of external memory between commands (20_memory.md R49, R51). -/
inductive HostMove where
  | issue (cmd : Command) (now : Word)
  | store (addr : Word) (value : Byte)
  deriving DecidableEq, Repr

/-- The state of the machine. -/
structure State where
  /-- The parameters of the instance (00_scope.md R5, R8): no step changes them. -/
  cfg : Config
  /-- MODE (10_state.md R23). -/
  mode : Mode
  /-- LAST, the refresh timestamp in milliseconds (10_state.md R24). -/
  last : Word
  /-- WB, the working buffer (10_state.md R28). -/
  wb : PixelBuffer
  /-- AB, the active buffer (10_state.md R29). -/
  ab : PixelBuffer
  /-- Mem, external memory (10_state.md R31). -/
  mem : Memory
  /-- NOW, the clock input as sampled for the current command (10_state.md R32). -/
  now : Word
  /-- The moves of the host still to come, next one first (10_state.md R32). -/
  port : List HostMove
  /-- The transport events emitted so far, oldest first (10_state.md R32; 60_exceptions.md R173). -/
  events : List Event
  /-- The responses returned so far, oldest first (10_state.md R32; 70_reset_and_hazards.md R193). -/
  responses : List Response
  deriving DecidableEq, Repr

/-- Reasons to stop with a fault: none. "Nothing in the block is treated as stuck or fault: every command terminates with a
response" (93_implementation_defined.md, Part 1; 70_reset_and_hazards.md R184; 60_exceptions.md R160). -/
inductive Fault where
  deriving DecidableEq, Repr

/-- Reasons for which the model has no step. -/
inductive Refusal where
  /-- Raised by an arm of `exec` for an instruction that has no meaning yet; safe. No arm raises it in this model. -/
  | notModelled (mnemonic : String)
  /-- Raised by `step` in a state whose parameters violate 00_scope.md R5: "a model must refuse a configuration with
  H mod 8 != 0 rather than pick a buffer size" (90_conflicts.md C1; 93_implementation_defined.md I16); safe. -/
  | configNotAdmitted
  deriving DecidableEq, Repr

/-- The reset sequence (70_reset_and_hazards.md R180) as a function of the configuration, of the transport's answer `init_ok`,
and of the two inputs that reset leaves as they are: external memory and the clock (10_state.md R34, 60_exceptions.md R168). -/
def State.resetWith (cfg : Config) (initOk : Bool) (mem : Memory) (now : Word) : State :=
  { cfg := cfg
    mode := if initOk then .ready else .halted
    last := 0
    wb := List.replicate cfg.nb 0
    ab := List.replicate cfg.nb 0
    mem := mem
    now := now
    port := []
    events := [.tInit cfg.dispAddr]
    responses := [] }

/-- The configuration of `State.reset`: the test geometry T8 of 95_test_vectors.md (DESIGN CHOICE, log entry 1: the spec fixes
no geometry), the default share rule of 41_ditherer.md R102, an open DISP_ADDR (log entry 2). -/
def Config.resetConfig : Config :=
  { W := 8, H := 8, ZW := 4, ZH := 4, dispAddr := Config.dispAddrAtReset, shareRule := .towardZero }

/-- The machine right after a reset whose initialisation succeeded (DESIGN CHOICE, log entry 3), no memory byte listed (log
entry 6), the clock at a value that is left open (log entry 4). -/
def State.reset : State := State.resetWith Config.resetConfig true [] Config.clockAtReset

end Sys2Proof.Machine
end

