-- ==== Sys2Proof/Machine/Flags.lean ====
section
/-! DEFINITION. The block has no flags, condition codes or predicates (spec 10_state.md R22): the outcome of a command is its
response (30_encoding.md R69). This file holds what stands in their place: the codes and the 16-bit word of a response. -/

namespace Sys2Proof.Machine

/-- The code of a status (30_encoding.md R69). -/
def Status.code : Status → Byte
  | .ok => 0x00
  | .range => 0x01
  | .illegal => 0x02
  | .halted => 0x03

/-- `RESP[15:8] = status`, `RESP[7:0] = data` (30_encoding.md R69). -/
def Response.word (r : Response) : Half := r.status.code ++ r.data

/-- The data byte of a lit (1) or unlit (0) answer (30_encoding.md R69). -/
def bitData (v : Bool) : Byte := if v then 1 else 0

end Sys2Proof.Machine
end

