-- ==== Sys2Proof/Machine/Memory.lean ====
section
/-! DEFINITION. External memory (spec 20_memory.md R40 to R47): reading and writing one byte, and the canonical form of the list. -/

namespace Sys2Proof.Machine

/-- What an address that nothing has written reads as. The spec leaves it open (93_implementation_defined.md I8).
DESIGN CHOICE (log entry 6), unsafe. -/
def unlistedByte : Byte := 0

/-- The byte the list holds at an address. -/
def Memory.lookup : Memory → Nat → Byte
  | [], _ => unlistedByte
  | (k, v) :: rest, a => if a = k then v else Memory.lookup rest a

/-- The list with one byte replaced, in canonical form. -/
def Memory.insert : Memory → Nat → Byte → Memory
  | [], a, v => if v = unlistedByte then [] else [(a, v)]
  | (k, w) :: rest, a, v =>
    if a < k then (if v = unlistedByte then (k, w) :: rest else (a, v) :: (k, w) :: rest)
    else if a = k then (if v = unlistedByte then rest else (a, v) :: rest)
    else (k, w) :: Memory.insert rest a v

/-- `MemRead(addr, 1)` (00_scope.md R13; every address reads, 20_memory.md R45). -/
def memRead (m : Memory) (a : Word) : Byte := Memory.lookup m a.toNat

/-- `MemWrite(addr, 1, v)` (00_scope.md R13; every address writes, 20_memory.md R45). -/
def memWrite (m : Memory) (a : Word) (v : Byte) : Memory := Memory.insert m a.toNat v

/-- The list holds only addresses from `lo` up to the top of the address space, strictly rising, and no byte that an unlisted
address would read as. -/
def Memory.wfFrom (lo : Nat) : Memory → Bool
  | [] => true
  | (k, v) :: rest =>
    decide (lo ≤ k) && decide (k < 2 ^ 32) && decide (v ≠ unlistedByte) && Memory.wfFrom (k + 1) rest

/-- The canonical form of external memory: equal memories are equal lists. -/
def Memory.wf (m : Memory) : Bool := Memory.wfFrom 0 m

end Sys2Proof.Machine
end

