-- ==== Sys2Proof/Machine/Operands.lean ====
section
/-! DEFINITION. What a command's operands reach: the coordinate and zone checks (spec 60_exceptions.md R161), the effective
addresses of every buffer layout (20_memory.md R47, R52 to R57), and the pixel helpers over bytes (R41, R42). -/

namespace Sys2Proof.Machine

/-- The effective address `(base + offset) mod 2^32` (20_memory.md R47). -/
def ea (base : Word) (offset : Nat) : Word := base + BitVec.ofNat 32 offset

/-- Panel RGB888 pixel `(x, y)`: `base + 3*(y*W + x)` (20_memory.md R52). -/
def panelEa (cfg : Config) (base : Word) (x y : Nat) : Word := ea base (3 * (y * cfg.W + x))

/-- Zone RGB888 pixel `(zx, zy)`: `base + 3*(zy*ZW + zx)` (20_memory.md R53). -/
def zone888Ea (cfg : Config) (base : Word) (zx zy : Nat) : Word := ea base (3 * (zy * cfg.ZW + zx))

/-- Zone RGB565 pixel `(zx, zy)`: `base + 2*(zy*ZW + zx)` (20_memory.md R54). -/
def zone565Ea (cfg : Config) (base : Word) (zx zy : Nat) : Word := ea base (2 * (zy * cfg.ZW + zx))

/-- Index byte of panel pixel `(x, y)`: `base + (y*W + x)` (20_memory.md R55). -/
def indexEa (cfg : Config) (base : Word) (x y : Nat) : Word := ea base (y * cfg.W + x)

/-- Palette entry `i`: `palbase + 3*i`, whatever `i` is (20_memory.md R56). -/
def paletteEa (pal : Word) (i : Byte) : Word := ea pal (3 * i.toNat)

/-- Flag of palette index `i`: `flagbase + i` (20_memory.md R57). -/
def flagEa (flg : Word) (i : Byte) : Word := ea flg i.toNat

/-- `Rd888(a)`: R, G, B at ascending addresses (20_memory.md R41). -/
def rd888 (m : Memory) (a : Word) : Rgb :=
  { r := memRead m a, g := memRead m (ea a 1), b := memRead m (ea a 2) }

/-- `Rd565(a)`: the low byte at the lower address (20_memory.md R42). -/
def rd565 (m : Memory) (a : Word) : Half := memRead m (ea a 1) ++ memRead m a

/-- `Wr888(a, (r,g,b))`: three byte writes at ascending addresses (00_scope.md R13). -/
def wr888 (m : Memory) (a : Word) (c : Rgb) : Memory :=
  memWrite (memWrite (memWrite m a c.r) (ea a 1) c.g) (ea a 2) c.b

/-- The coordinate check, operands read as unsigned integers (30_encoding.md R65, 60_exceptions.md R161). -/
def inPanel (cfg : Config) (x y : Word) : Bool := decide (x.toNat < cfg.W) && decide (y.toNat < cfg.H)

/-- The zone check: `idx < NZ` (43_zone_compositor.md R140, 60_exceptions.md R161). -/
def zoneValid (cfg : Config) (idx : Word) : Bool := decide (idx.toNat < cfg.nz)

end Sys2Proof.Machine
end

