-- ==== Sys2Proof/Machine/PixelBuffer.lean ====
section
/-! DEFINITION. Pixel access to a bit-packed buffer (spec 10_state.md R26, R27) and painting a rectangle pixel by pixel. -/

namespace Sys2Proof.Machine

/-- `idx(x,y) = x + (y div 8)*W`: the byte of pixel `(x, y)` (10_state.md R27). -/
def pixelIdx (cfg : Config) (x y : Nat) : Nat := x + (y / 8) * cfg.W

/-- `pos(y) = y mod 8`: the bit position of pixel `(x, y)`, of weight `2^pos` (10_state.md R26, R27). -/
def pixelPos (y : Nat) : Nat := y % 8

/-- A byte with one bit set to a value and the others kept. -/
def putBit (b : Byte) (k : Nat) (v : Bool) : Byte :=
  if v then b ||| (1#8 <<< k) else b &&& ~~~(1#8 <<< k)

/-- The read primitive `X(x,y)` (10_state.md R27): lit is `true`. Used within the bounds only (R27). -/
def pixel (cfg : Config) (buf : PixelBuffer) (x y : Nat) : Bool :=
  (buf.getD (pixelIdx cfg x y) 0).getLsbD (pixelPos y)

/-- The write primitive `X(x,y) <- v` (10_state.md R27): exactly one bit of one byte. Used within the bounds only (R27). -/
def setPixel (cfg : Config) (buf : PixelBuffer) (x y : Nat) (v : Bool) : PixelBuffer :=
  buf.set (pixelIdx cfg x y) (putBit (buf.getD (pixelIdx cfg x y) 0) (pixelPos y) v)

/-- Write the pixels of the `w` by `h` rectangle at `(x0, y0)`, in raster order of the rectangle: local pixel `(i, j)` takes the
colour `f i j`, or keeps its value where `f i j` is `none` (the loops of 43_zone_compositor.md R141 to R145). -/
def paint (cfg : Config) (x0 y0 w h : Nat) (f : Nat → Nat → Option Bool) (buf : PixelBuffer) : PixelBuffer :=
  (raster w h).foldl
    (fun acc p => match f p.1 p.2 with
      | some v => setPixel cfg acc (x0 + p.1) (y0 + p.2) v
      | none => acc) buf

end Sys2Proof.Machine
end

