-- ==== Sys2Proof/Machine/Ops.lean ====
section
/-! DEFINITION. The operations the meanings share: answering a command, refusing one (the block's only exception,
spec 60_exceptions.md R160 to R164), emitting transport events, the two buffer actions (42_framebuffer_manager.md R120, R121),
and what a move of the host does before a command runs. There is no trap entry and no return (60_exceptions.md R166). -/

namespace Sys2Proof.Machine

/-- `respond(s, d)` (00_scope.md R14): the command ends with this status and data. -/
def respond (status : Status) (data : Byte) (s : State) : State :=
  { s with responses := s.responses ++ [{ status := status, data := data }] }

/-- `raise RANGE`, `raise ILLEGAL`, `raise HALTED` (00_scope.md R14, 60_exceptions.md R163): the status with data 0, and no other
change. -/
def raise (status : Status) (s : State) : State := respond status 0 s

/-- `emit E` for a list of events in order (00_scope.md R14, 60_exceptions.md R173). -/
def emit (es : List Event) (s : State) : State := { s with events := s.events ++ es }

/-- Perform a command unless the block is HALTED, in which case every command is refused (60_exceptions.md R162, R164;
30_encoding.md R74). -/
def whenReady (body : State → State) (s : State) : State :=
  match s.mode with
  | .halted => raise .halted s
  | .ready => body s

/-- Perform a command's body if its range check holds, else refuse it with RANGE before anything is touched (30_encoding.md R74,
60_exceptions.md R161). -/
def whenInRange (check : Bool) (body : State → State) (s : State) : State :=
  if check then body s else raise .range s

/-- One command: it always ends with a response, so the machine always has a next state (70_reset_and_hazards.md R184). -/
def perform (body : State → State) (s : State) : Host.Outcome State Fault Refusal := .next (whenReady body s)

/-- The blit of a whole frame (42_framebuffer_manager.md R120; 60_exceptions.md R171). -/
def blitEvent (cfg : Config) (frame : PixelBuffer) : Event := .tBlit 0 0 frame cfg.W cfg.H 1

/-- `SwapAction` (42_framebuffer_manager.md R120): AB takes every byte of WB, then the three events, the blit carrying AB as it
stands after the copy. -/
def swapAction (s : State) : State :=
  emit [.tClearFb, blitEvent s.cfg s.wb, .tPresent] { s with ab := s.wb }

/-- `CopyAction` (42_framebuffer_manager.md R121): WB takes every byte of AB. -/
def copyAction (s : State) : State := { s with wb := s.ab }

/-- The block takes a command off its port; `now` is what the clock reads during that step (30_encoding.md R60,
60_exceptions.md R168). -/
def acceptCommand (now : Word) (rest : List HostMove) (s : State) : State := { s with port := rest, now := now }

/-- The host writes one byte of external memory between commands (20_memory.md R49, R51). -/
def hostStore (a : Word) (v : Byte) (rest : List HostMove) (s : State) : State :=
  { s with port := rest, mem := memWrite s.mem a v }

/-- A command word that matches no row: ILLEGAL, unless the block is HALTED (30_encoding.md R67, R74; 60_exceptions.md R162). -/
def illegalCommand (s : State) : State := whenReady (raise .illegal) s

end Sys2Proof.Machine
end

