-- ==== Sys2Proof/Machine/Convert.lean ====
section
/-! DEFINITION. The colour converter (spec 40_color_reducer.md R80 to R85) and the three conversion commands (R86 to R88). -/

namespace Sys2Proof.Machine

/-- The luminance sum `S(r,g,b) = 299*r + 587*g + 114*b`, exact (40_color_reducer.md R80). -/
def lumSum (c : Rgb) : Nat := 299 * c.r.toNat + 587 * c.g.toNat + 114 * c.b.toNat

/-- `ToMono888`: lit iff `S >= 128000` (40_color_reducer.md R81). -/
def toMono888 (c : Rgb) : Bool := decide (128000 ≤ lumSum c)

/-- `Unpack565`: each channel shifted left, the low bits zero and not replicated (40_color_reducer.md R82). -/
def unpack565 (w : Half) : Rgb :=
  { r := w.extractLsb' 11 5 ++ 0#3, g := w.extractLsb' 5 6 ++ 0#2, b := w.extractLsb' 0 5 ++ 0#3 }

/-- `ToMono565` (40_color_reducer.md R83). -/
def toMono565 (w : Half) : Bool := toMono888 (unpack565 w)

/-- `ToGray888`: `S div 1000`, 0 to 255 (40_color_reducer.md R84). -/
def toGray888 (c : Rgb) : Nat := lumSum c / 1000

/-- `CVTMONO888 colour` (40_color_reducer.md R86). -/
def execCvtmono888 (c : Rgb) (s : State) : Host.Outcome State Fault Refusal :=
  perform (respond .ok (bitData (toMono888 c))) s

/-- `CVTMONO565 colour565` (40_color_reducer.md R87). -/
def execCvtmono565 (w : Half) (s : State) : Host.Outcome State Fault Refusal :=
  perform (respond .ok (bitData (toMono565 w))) s

/-- `CVTGRAY888 colour` (40_color_reducer.md R88). -/
def execCvtgray888 (c : Rgb) (s : State) : Host.Outcome State Fault Refusal :=
  perform (respond .ok (BitVec.ofNat 8 (toGray888 c))) s

end Sys2Proof.Machine
end

