-- ==== Sys2Proof/Machine/Dither.lean ====
section
/-! DEFINITION. The Floyd-Steinberg ditherer (spec 41_ditherer.md R100 to R107) and its command. -/

namespace Sys2Proof.Machine

/-- `Share(err, w)` (41_ditherer.md R102): `err*w/16`, truncated toward zero by default; the floor is the named alternative. -/
def share (rule : ShareRule) (err w : Int) : Int :=
  match rule with
  | .towardZero => Int.tdiv (err * w) 16
  | .floor => Int.fdiv (err * w) 16

/-- `clamp255` (00_scope.md R12) as the byte that is written back (41_ditherer.md R104). -/
def clamp255 (v : Int) : Byte :=
  if v < 0 then 0 else if 255 < v then 255 else BitVec.ofNat 8 v.toNat

/-- A channel after the share `q` is added to it (41_ditherer.md R104). -/
def addClamped (c : Byte) (q : Int) : Byte := clamp255 ((c.toNat : Int) + q)

/-- The same share added to each of the three channels (41_ditherer.md R104). -/
def addShare (c : Rgb) (q : Int) : Rgb :=
  { r := addClamped c.r q, g := addClamped c.g q, b := addClamped c.b q }

/-- The kernel `(dx, dy, w)`: east, south-west, south, south-east (41_ditherer.md R101, R103). -/
def kernel : List (Int × Int × Int) := [(1, 0, 7), (-1, 1, 3), (0, 1, 5), (1, 1, 1)]

/-- `newPixel` is 255: the grey is strictly above 128 (41_ditherer.md R101; 90_conflicts.md C3). -/
def ditherLit (c : Rgb) : Bool := decide (128 < toGray888 c)

/-- `err = gr - np`, signed (41_ditherer.md R101). -/
def ditherErr (c : Rgb) : Int := (toGray888 c : Int) - (if ditherLit c then 255 else 0)

/-- One neighbour of pixel `(x, y)` takes its share; a neighbour outside the panel is neither read nor written
(41_ditherer.md R101, R103). -/
def diffuse (cfg : Config) (base : Word) (x y : Nat) (err : Int) (m : Memory) (k : Int × Int × Int) : Memory :=
  let nx : Int := (x : Int) + k.1
  let ny : Int := (y : Int) + k.2.1
  if 0 ≤ nx ∧ nx < (cfg.W : Int) ∧ 0 ≤ ny ∧ ny < (cfg.H : Int) then
    let a := panelEa cfg base nx.toNat ny.toNat
    wr888 m a (addShare (rd888 m a) (share cfg.shareRule err k.2.2))
  else m

/-- The per-pixel step (41_ditherer.md R101) on the scratch memory and the working buffer. -/
def ditherPixel (cfg : Config) (base : Word) (mw : Memory × PixelBuffer) (p : Nat × Nat) : Memory × PixelBuffer :=
  let c := rd888 mw.1 (panelEa cfg base p.1 p.2)
  (kernel.foldl (diffuse cfg base p.1 p.2 (ditherErr c)) mw.1, setPixel cfg mw.2 p.1 p.2 (ditherLit c))

/-- The whole pass, in raster order (41_ditherer.md R100, R105). -/
def ditherPanel (cfg : Config) (base : Word) (m : Memory) (wb : PixelBuffer) : Memory × PixelBuffer :=
  (raster cfg.W cfg.H).foldl (ditherPixel cfg base) (m, wb)

/-- `FILLPANELRAW addr` (41_ditherer.md R105). -/
def execFillpanelraw (addr : Word) (s : State) : Host.Outcome State Fault Refusal :=
  perform (fun s =>
    let mw := ditherPanel s.cfg addr s.mem s.wb
    respond .ok 0 { s with mem := mw.1, wb := mw.2 }) s

end Sys2Proof.Machine
end

