-- ==== Sys2Proof/Machine/Fills.lean ====
section
/-! DEFINITION. The zone and panel fills (spec 43_zone_compositor.md R140 to R145): direct threshold, WB only. -/

namespace Sys2Proof.Machine

/-- Write every pixel of a valid zone of WB, or refuse with RANGE (43_zone_compositor.md R140, R141). -/
def fillZone (idx : Word) (f : Nat → Nat → Bool) (s : State) : State :=
  whenInRange (zoneValid s.cfg idx)
    (fun s => respond .ok 0 { s with
      wb := paint s.cfg (xOff s.cfg idx.toNat) (yOff s.cfg idx.toNat) s.cfg.ZW s.cfg.ZH (fun zx zy => some (f zx zy)) s.wb }) s

/-- Write the pixels of the whole panel of WB that `f` gives a colour (43_zone_compositor.md R143 to R145). -/
def fillPanel (f : Nat → Nat → Option Bool) (s : State) : State :=
  respond .ok 0 { s with wb := paint s.cfg 0 0 s.cfg.W s.cfg.H f s.wb }

/-- The palette index of panel pixel `(x, y)` (20_memory.md R55). -/
def indexAt (s : State) (addr : Word) (x y : Nat) : Byte := memRead s.mem (indexEa s.cfg addr x y)

/-- The converted palette entry of an index (43_zone_compositor.md R143; 20_memory.md R56). -/
def paletteLit (s : State) (pal : Word) (i : Byte) : Bool := toMono888 (rd888 s.mem (paletteEa pal i))

/-- Index `i` is flagged as changed: its byte is non-zero (20_memory.md R57). -/
def flagged (s : State) (flg : Word) (i : Byte) : Bool := memRead s.mem (flagEa flg i) != 0

/-- `FILLZONE888 idx, addr` (43_zone_compositor.md R141). -/
def execFillzone888 (idx addr : Word) (s : State) : Host.Outcome State Fault Refusal :=
  perform (fillZone idx fun zx zy => toMono888 (rd888 s.mem (zone888Ea s.cfg addr zx zy))) s

/-- `FILLZONE565 idx, addr` (43_zone_compositor.md R142). -/
def execFillzone565 (idx addr : Word) (s : State) : Host.Outcome State Fault Refusal :=
  perform (fillZone idx fun zx zy => toMono565 (rd565 s.mem (zone565Ea s.cfg addr zx zy))) s

/-- `FILLPAL addr, paladdr` (43_zone_compositor.md R143). -/
def execFillpal (addr pal : Word) (s : State) : Host.Outcome State Fault Refusal :=
  perform (fillPanel fun x y => some (paletteLit s pal (indexAt s addr x y))) s

/-- `FILLPALCHG addr, paladdr, flagaddr` (43_zone_compositor.md R144): an index that is not flagged keeps its pixels. -/
def execFillpalchg (addr pal flg : Word) (s : State) : Host.Outcome State Fault Refusal :=
  perform (fillPanel fun x y =>
    if flagged s flg (indexAt s addr x y) then some (paletteLit s pal (indexAt s addr x y)) else none) s

/-- `FILLSCR colour` (43_zone_compositor.md R145). -/
def execFillscr (c : Rgb) (s : State) : Host.Outcome State Fault Refusal :=
  perform (fillPanel fun _ _ => some (toMono888 c)) s

end Sys2Proof.Machine
end

