-- ==== Sys2Proof/Machine/Framebuffer.lean ====
section
/-! DEFINITION. The framebuffer manager and the refresh throttle (spec 42_framebuffer_manager.md R120 to R126). -/

namespace Sys2Proof.Machine

/-- `SWAP` (42_framebuffer_manager.md R122). -/
def execSwap (s : State) : Host.Outcome State Fault Refusal :=
  perform (fun s => respond .ok 0 (swapAction s)) s

/-- `COPYFB` (42_framebuffer_manager.md R123). -/
def execCopyfb (s : State) : Host.Outcome State Fault Refusal :=
  perform (fun s => respond .ok 0 (copyAction s)) s

/-- `elapsed = (now - LAST) mod 2^32` (42_framebuffer_manager.md R124). -/
def elapsed (s : State) : Nat := (s.now - s.last).toNat

/-- The throttle compare, "at least" (42_framebuffer_manager.md R124, 60_exceptions.md R169). -/
def refreshDue (s : State) : Bool := decide (interval ≤ elapsed s)

/-- `UPDATE` (42_framebuffer_manager.md R124): LAST takes the sampled clock value. -/
def execUpdate (s : State) : Host.Outcome State Fault Refusal :=
  perform (fun s =>
    if refreshDue s then respond .ok 1 { copyAction (swapAction s) with last := s.now }
    else respond .ok 0 s) s

/-- `CLEAR` (42_framebuffer_manager.md R125): WB only; AB keeps the last swapped frame. -/
def execClear (s : State) : Host.Outcome State Fault Refusal :=
  perform (fun s =>
    respond .ok 0 (emit [.tClearFb, .tPresent] { s with wb := List.replicate s.cfg.nb 0 })) s

/-- `SETBRT level`: the level is discarded (42_framebuffer_manager.md R126, 30_encoding.md R68). -/
def execSetbrt (_level : Byte) (s : State) : Host.Outcome State Fault Refusal :=
  perform (respond .ok 0) s

end Sys2Proof.Machine
end

