-- ==== Sys2Proof/Machine/Pixel.lean ====
section
/-! DEFINITION. The pixel commands (spec 40_color_reducer.md R89 to R91). -/

namespace Sys2Proof.Machine

/-- Draw one pixel of WB, lit or unlit, or refuse with RANGE (40_color_reducer.md R89, R90). -/
def drawPixel (x y : Word) (lit : Bool) (s : State) : State :=
  whenInRange (inPanel s.cfg x y)
    (fun s => respond .ok 0 { s with wb := setPixel s.cfg s.wb x.toNat y.toNat lit }) s

/-- `DRAWPIX888 x, y, colour` (40_color_reducer.md R89). -/
def execDrawpix888 (x y : Word) (c : Rgb) (s : State) : Host.Outcome State Fault Refusal :=
  perform (drawPixel x y (toMono888 c)) s

/-- `DRAWPIX565 x, y, colour565` (40_color_reducer.md R90). -/
def execDrawpix565 (x y : Word) (w : Half) (s : State) : Host.Outcome State Fault Refusal :=
  perform (drawPixel x y (toMono565 w)) s

/-- `GETPIX x, y`: the working buffer's pixel, not the active buffer's (40_color_reducer.md R91). -/
def execGetpix (x y : Word) (s : State) : Host.Outcome State Fault Refusal :=
  perform (fun s => whenInRange (inPanel s.cfg x y)
    (fun s => respond .ok (bitData (pixel s.cfg s.wb x.toNat y.toNat)) s) s) s

end Sys2Proof.Machine
end

