-- ==== Sys2Proof/Machine/Dispatch.lean ====
section
/-! DEFINITION. One arm per command (spec 30_encoding.md R66): the meaning of each. -/

namespace Sys2Proof.Machine

def exec (i : Instr) (s : State) : Host.Outcome State Fault Refusal :=
  match i with
  -- colour converter and pixel access (40_color_reducer.md)
  | .cvtmono888 c => Sys2Proof.Machine.execCvtmono888 c s
  | .cvtmono565 w => Sys2Proof.Machine.execCvtmono565 w s
  | .cvtgray888 c => Sys2Proof.Machine.execCvtgray888 c s
  | .drawpix888 x y c => Sys2Proof.Machine.execDrawpix888 x y c s
  | .drawpix565 x y w => Sys2Proof.Machine.execDrawpix565 x y w s
  | .getpix x y => Sys2Proof.Machine.execGetpix x y s
  -- ditherer (41_ditherer.md)
  | .fillpanelraw addr => Sys2Proof.Machine.execFillpanelraw addr s
  -- framebuffer manager (42_framebuffer_manager.md)
  | .swap => Sys2Proof.Machine.execSwap s
  | .copyfb => Sys2Proof.Machine.execCopyfb s
  | .update => Sys2Proof.Machine.execUpdate s
  | .clear => Sys2Proof.Machine.execClear s
  | .setbrt level => Sys2Proof.Machine.execSetbrt level s
  -- zone compositor (43_zone_compositor.md)
  | .fillzone888 idx addr => Sys2Proof.Machine.execFillzone888 idx addr s
  | .fillzone565 idx addr => Sys2Proof.Machine.execFillzone565 idx addr s
  | .fillpal addr pal => Sys2Proof.Machine.execFillpal addr pal s
  | .fillpalchg addr pal flg => Sys2Proof.Machine.execFillpalchg addr pal flg s
  | .fillscr c => Sys2Proof.Machine.execFillscr c s

end Sys2Proof.Machine
end

