-- ==== Sys2Proof/Machine/Step.lean ====
section
/-! DEFINITION. One step of the machine (spec 00_scope.md R10, 30_encoding.md R74): the next move of the host, performed whole. -/

namespace Sys2Proof.Machine

/-- One step: nothing presented leaves the block idle (60_exceptions.md R176); a host store lands; a command is decoded and
performed, or refused as ILLEGAL (HALTED first, 60_exceptions.md R162: every meaning and `illegalCommand` check it). A
configuration outside 00_scope.md R5 is refused (log entry 8). -/
def step (s : State) : Host.Outcome State Fault Refusal :=
  if s.cfg.admitted then
    match s.port with
    | [] => .next s
    | .store a v :: rest => .next (hostStore a v rest s)
    | .issue cmd now :: rest =>
      match decode cmd with
      | .ok i => exec i (acceptCommand now rest s)
      | .error _ => .next (illegalCommand (acceptCommand now rest s))
  else .refused .configNotAdmitted

/-- `s` with a table-numbered command as the next move of the host, the clock reading what it read (log entries 5, 18). -/
def State.withFetchWord (s : State) (nbits w : Nat) : State :=
  { s with port := .issue (tableCommand nbits w) s.now :: s.port }

end Sys2Proof.Machine
end

