-- ==== Sys2Proof/Machine/Pseudo.lean ====
section
/-! DEFINITION. The host-side pseudo-instructions (spec 30_encoding.md R72, 43_zone_compositor.md R147): what each expands to.
Nothing in the block depends on them. -/

namespace Sys2Proof.Machine

/-- `DRAWLIT x, y` (30_encoding.md R72). -/
def drawLit (x y : Word) : Instr := .drawpix888 x y { r := 255, g := 255, b := 255 }

/-- `DRAWUNLIT x, y` (30_encoding.md R72). -/
def drawUnlit (x y : Word) : Instr := .drawpix888 x y { r := 0, g := 0, b := 0 }

/-- `PRESENTNOW` (30_encoding.md R72). -/
def presentNow : List Instr := [.swap, .copyfb]

/-- One glyph pixel of `TEXT` (43_zone_compositor.md R147): inversion first, then the transparency test. -/
def textPixel (lit invert transparent : Bool) (x y : Word) : List Instr :=
  if lit != invert then [drawLit x y]
  else if !transparent then [drawUnlit x y]
  else []

/-- One 4 by 6 cell of `TEXT` (43_zone_compositor.md R147): columns outermost, bit `j` of a column is row `j`. -/
def textCell (column : Nat → Byte) (x0 y0 : Nat) (transparent invert : Bool) : List Instr :=
  (List.range 4).flatMap fun c => (List.range 6).flatMap fun j =>
    textPixel ((column c).getLsbD j) invert transparent (BitVec.ofNat 32 (x0 + c)) (BitVec.ofNat 32 (y0 + j))

/-- `TEXT` (43_zone_compositor.md R147): the characters one after another, 4 pixels apart; the glyph table is outside the spec, so
it is an argument. Coordinates are taken modulo 2^32 to fit an operand word (DESIGN CHOICE, log entry 16). -/
def text (glyph : Nat → Nat → Byte) (chars : List Nat) (x0 y0 : Nat) (transparent invert : Bool) : List Instr :=
  match chars with
  | [] => []
  | ch :: rest => textCell (glyph ch) x0 y0 transparent invert ++ text glyph rest (x0 + 4) y0 transparent invert

end Sys2Proof.Machine
end

