-- ==== Sys2Proof/Safety.lean ====
section
/-! DEFINITION. What holds of the machine in every run (spec 10_state.md R26, R34; 60_exceptions.md R164, R173;
42_framebuffer_manager.md R127), in the terms the claims use: each is a predicate on one state. -/

namespace Sys2Proof.Machine

/-- The parameters are admitted (00_scope.md R5), both buffers have NB bytes (10_state.md R26), and the memory list is canonical. -/
structure State.WellSized (s : State) : Prop where
  cfg_admitted : s.cfg.admitted = true
  wb_length : s.wb.length = s.cfg.nb
  ab_length : s.ab.length = s.cfg.nb
  mem_wf : Memory.wf s.mem = true

/-- What a block whose initialisation failed keeps for ever (60_exceptions.md R164): blank buffers, LAST 0, no event after the
failed T_INIT. -/
def State.HaltedStaysBlank (s : State) : Prop :=
  s.mode = .halted →
    s.wb = List.replicate s.cfg.nb 0 ∧ s.ab = List.replicate s.cfg.nb 0 ∧ s.last = 0 ∧ s.events = [.tInit s.cfg.dispAddr]

/-- The event sequence of a swap or a refreshing update with this frame (60_exceptions.md R173). -/
def frameEvents (cfg : Config) (frame : PixelBuffer) : List Event :=
  [.tClearFb, .tBlit 0 0 frame cfg.W cfg.H 1, .tPresent]

/-- The event sequence of a clear (60_exceptions.md R173). -/
def clearEvents : List Event := [.tClearFb, .tPresent]

/-- A list of events is one of the complete sequences that a command can emit, the blit carrying a whole frame of NB bytes
(60_exceptions.md R173, 42_framebuffer_manager.md R127 (c)). -/
def CompleteSequence (cfg : Config) (es : List Event) : Prop :=
  es = clearEvents ∨ ∃ frame : PixelBuffer, frame.length = cfg.nb ∧ es = frameEvents cfg frame

/-- The output of the run is T_INIT and then complete sequences, nothing cut and nothing interleaved (60_exceptions.md R173). -/
def State.EventsComplete (s : State) : Prop :=
  ∃ seqs : List (List Event),
    s.events = .tInit s.cfg.dispAddr :: seqs.flatten ∧ ∀ es ∈ seqs, CompleteSequence s.cfg es

/-- The bytes the most recent T_BLIT carried, none if there was none. -/
def lastBlit : List Event → Option (List Byte)
  | [] => none
  | e :: rest => match lastBlit rest with
    | some d => some d
    | none => match e with
      | .tBlit _ _ data _ _ _ => some data
      | .tInit _ => none
      | .tClearFb => none
      | .tPresent => none

/-- Whatever is drawn, AB holds what the most recent blit carried, and is blank before the first (42_framebuffer_manager.md R127 (b);
10_state.md R29, R34). -/
def State.ActiveIsLastBlit (s : State) : Prop :=
  s.ab = (lastBlit s.events).getD (List.replicate s.cfg.nb 0)

/-- A run of a number of steps; a refusal ends it (70_reset_and_hazards.md R193: a run is the finite sequence of the host's moves). -/
def run : Nat → State → Host.Outcome State Fault Refusal
  | 0, s => .next s
  | n + 1, s => match step s with
    | .next t => run n t
    | .fault r => .fault r
    | .refused r => .refused r

end Sys2Proof.Machine
end

