-- ==== Sys2Proof/Certificates/Slice0/Obligations.lean ====
section
/-! DEFINITION. The statements about the machine. Each docstring says which rule of spec/ it formalises. A statement about a command
gives the whole next state, so its frame is in it: what the record does not name is unchanged. -/

open Sys2Proof Sys2Proof.Machine

/-! ### Colour converter (40_color_reducer.md) -/

/-- R80, R81: CVTMONO888 answers 1 iff 299r+587g+114b >= 128000, and changes nothing but the response list. -/
def Obligations.CvtMono888AnswersThreshold : Prop :=
  ∀ (c : Rgb) (s : State), s.mode = .ready →
    exec (.cvtmono888 c) s = .next { s with responses := s.responses ++
      [{ status := .ok, data := if 128000 ≤ 299 * c.r.toNat + 587 * c.g.toNat + 114 * c.b.toNat then 1 else 0 }] }

/-- R83, second line: CVTMONO565 answers 1 iff 2392*r5 + 2348*g6 + 912*b5 >= 128000, the fields taken by division. -/
def Obligations.CvtMono565AnswersWeightedFields : Prop :=
  ∀ (w : Half) (s : State), s.mode = .ready →
    exec (.cvtmono565 w) s = .next { s with responses := s.responses ++
      [{ status := .ok,
         data := if 128000 ≤ 2392 * (w.toNat / 2048) + 2348 * (w.toNat / 32 % 64) + 912 * (w.toNat % 32) then 1 else 0 }] }

/-- R84: CVTGRAY888 answers S div 1000, which fits the data byte. -/
def Obligations.CvtGray888AnswersTruncatedLuminance : Prop :=
  ∀ (c : Rgb) (s : State), s.mode = .ready →
    (299 * c.r.toNat + 587 * c.g.toNat + 114 * c.b.toNat) / 1000 ≤ 255 ∧
    exec (.cvtgray888 c) s = .next { s with responses := s.responses ++
      [{ status := .ok, data := BitVec.ofNat 8 ((299 * c.r.toNat + 587 * c.g.toNat + 114 * c.b.toNat) / 1000) }] }

/-- R82: Unpack565(w) = (8*r5, 4*g6, 8*b5), so the low bits are zero and the maxima are 248, 252, 248. -/
def Obligations.Unpack565ShiftsWithoutFill : Prop :=
  ∀ w : Half,
    (unpack565 w).r.toNat = 8 * (w.toNat / 2048) ∧ (unpack565 w).g.toNat = 4 * (w.toNat / 32 % 64) ∧
    (unpack565 w).b.toNat = 8 * (w.toNat % 32) ∧
    (unpack565 w).r.toNat ≤ 248 ∧ (unpack565 w).g.toNat ≤ 252 ∧ (unpack565 w).b.toNat ≤ 248

/-- R85, R81, R84 together: the grey of a colour is at least 128 iff the colour is lit; R84: the grey of (v,v,v) is v. -/
def Obligations.GreyAgreesWithThreshold : Prop :=
  (∀ c : Rgb, 128 ≤ toGray888 c ↔ toMono888 c = true) ∧
  (∀ v : Byte, toGray888 { r := v, g := v, b := v } = v.toNat)

/-! ### Pixel commands (40_color_reducer.md section 3, 10_state.md section 3) -/

/-- R89: DRAWPIX888 writes exactly the pixel it names, to lit or to unlit; outside the panel it answers RANGE and writes nothing. -/
def Obligations.DrawPix888WritesExactlyOnePixel : Prop :=
  ∀ (x y : Word) (c : Rgb) (s : State), s.WellSized → s.mode = .ready →
    (x.toNat < s.cfg.W ∧ y.toNat < s.cfg.H →
      ∃ wb : PixelBuffer,
        exec (.drawpix888 x y c) s =
          .next { s with wb := wb, responses := s.responses ++ [{ status := .ok, data := 0 }] } ∧
        wb.length = s.wb.length ∧
        pixel s.cfg wb x.toNat y.toNat = decide (128000 ≤ 299 * c.r.toNat + 587 * c.g.toNat + 114 * c.b.toNat) ∧
        ∀ x' y', x' < s.cfg.W → y' < s.cfg.H → ¬(x' = x.toNat ∧ y' = y.toNat) →
          pixel s.cfg wb x' y' = pixel s.cfg s.wb x' y') ∧
    (¬(x.toNat < s.cfg.W ∧ y.toNat < s.cfg.H) →
      exec (.drawpix888 x y c) s = .next { s with responses := s.responses ++ [{ status := .range, data := 0 }] })

/-- R90: the same of DRAWPIX565, by the RGB565 threshold. -/
def Obligations.DrawPix565WritesExactlyOnePixel : Prop :=
  ∀ (x y : Word) (w : Half) (s : State), s.WellSized → s.mode = .ready →
    (x.toNat < s.cfg.W ∧ y.toNat < s.cfg.H →
      ∃ wb : PixelBuffer,
        exec (.drawpix565 x y w) s =
          .next { s with wb := wb, responses := s.responses ++ [{ status := .ok, data := 0 }] } ∧
        wb.length = s.wb.length ∧
        pixel s.cfg wb x.toNat y.toNat =
          decide (128000 ≤ 2392 * (w.toNat / 2048) + 2348 * (w.toNat / 32 % 64) + 912 * (w.toNat % 32)) ∧
        ∀ x' y', x' < s.cfg.W → y' < s.cfg.H → ¬(x' = x.toNat ∧ y' = y.toNat) →
          pixel s.cfg wb x' y' = pixel s.cfg s.wb x' y') ∧
    (¬(x.toNat < s.cfg.W ∧ y.toNat < s.cfg.H) →
      exec (.drawpix565 x y w) s = .next { s with responses := s.responses ++ [{ status := .range, data := 0 }] })

/-- R91 with R27: GETPIX answers bit `y mod 8` of byte `x + (y div 8)*W` of WB, by the arithmetic of R27; outside the panel RANGE. -/
def Obligations.GetPixAnswersWorkingBit : Prop :=
  ∀ (x y : Word) (s : State), s.mode = .ready →
    (x.toNat < s.cfg.W ∧ y.toNat < s.cfg.H →
      exec (.getpix x y) s = .next { s with responses := s.responses ++
        [{ status := .ok,
           data := BitVec.ofNat 8
             ((s.wb.getD (x.toNat + (y.toNat / 8) * s.cfg.W) 0).toNat / 2 ^ (y.toNat % 8) % 2) }] }) ∧
    (¬(x.toNat < s.cfg.W ∧ y.toNat < s.cfg.H) →
      exec (.getpix x y) s = .next { s with responses := s.responses ++ [{ status := .range, data := 0 }] })

/-- R91, 95_test_vectors.md S1: a pixel drawn with either colour encoding and then read gives the converted colour back. -/
def Obligations.DrawThenGetPixRoundTrips : Prop :=
  ∀ (x y : Word) (c : Rgb) (w : Half) (s : State), s.WellSized → s.mode = .ready →
    x.toNat < s.cfg.W → y.toNat < s.cfg.H →
    (∃ t u, exec (.drawpix888 x y c) s = .next t ∧ exec (.getpix x y) t = .next u ∧
      u.responses = s.responses ++ [{ status := .ok, data := 0 },
        { status := .ok, data := if toMono888 c then 1 else 0 }]) ∧
    (∃ t u, exec (.drawpix565 x y w) s = .next t ∧ exec (.getpix x y) t = .next u ∧
      u.responses = s.responses ++ [{ status := .ok, data := 0 },
        { status := .ok, data := if toMono565 w then 1 else 0 }])

/-- R27: the write primitive by its arithmetic, one byte changed and no other, and the read primitive by its arithmetic. -/
def Obligations.PixelPrimitivesFollowTheirArithmetic : Prop :=
  ∀ (cfg : Config) (buf : PixelBuffer) (x y : Nat) (v : Bool), x + (y / 8) * cfg.W < buf.length →
    (pixel cfg buf x y).toNat = (buf.getD (x + (y / 8) * cfg.W) 0).toNat / 2 ^ (y % 8) % 2 ∧
    ((setPixel cfg buf x y v).getD (x + (y / 8) * cfg.W) 0).toNat =
      (buf.getD (x + (y / 8) * cfg.W) 0).toNat - (pixel cfg buf x y).toNat * 2 ^ (y % 8) + v.toNat * 2 ^ (y % 8) ∧
    (∀ i, i ≠ x + (y / 8) * cfg.W → (setPixel cfg buf x y v).getD i 0 = buf.getD i 0) ∧
    (setPixel cfg buf x y v).length = buf.length

/-- R26: in an admitted configuration every bit of a buffer of NB bytes is a pixel, and two pixels never share a bit. -/
def Obligations.EveryBufferBitIsOnePixel : Prop :=
  ∀ cfg : Config, cfg.admitted = true →
    (∀ x y, x < cfg.W → y < cfg.H → pixelIdx cfg x y < cfg.nb ∧ pixelPos y < 8) ∧
    (∀ i k, i < cfg.nb → k < 8 →
      ∃ x y, x < cfg.W ∧ y < cfg.H ∧ pixelIdx cfg x y = i ∧ pixelPos y = k ∧
        ∀ x' y', x' < cfg.W → y' < cfg.H → pixelIdx cfg x' y' = i → pixelPos y' = k → x' = x ∧ y' = y)

/-! ### Ditherer (41_ditherer.md) -/

/-- R102: the default share is the exact product divided by 16, truncated toward zero: the remainder has the sign of the product and
is smaller than 16. The floor rule is the alternative R102 names. -/
def Obligations.ShareTruncatesTowardZero : Prop :=
  (∀ err w : Int,
    (0 ≤ err * w → 0 ≤ err * w - 16 * share .towardZero err w ∧ err * w - 16 * share .towardZero err w < 16) ∧
    (err * w ≤ 0 → err * w - 16 * share .towardZero err w ≤ 0 ∧ -16 < err * w - 16 * share .towardZero err w)) ∧
  (∀ err w : Int, 0 ≤ err * w - 16 * share .floor err w ∧ err * w - 16 * share .floor err w < 16)

/-- R106 (a): the error lies in -126 .. 128 and, by the default rule, every share of it in -55 .. 56. -/
def Obligations.DitherErrorAndSharesAreBounded : Prop :=
  ∀ c : Rgb, (-126 ≤ ditherErr c ∧ ditherErr c ≤ 128) ∧
    ∀ k ∈ kernel, -55 ≤ share .towardZero (ditherErr c) k.2.2 ∧ share .towardZero (ditherErr c) k.2.2 ≤ 56

/-- R101, R103, R104: the step at one pixel. Its bit of WB becomes lit iff its grey is strictly above 128 and no other bit changes;
every panel pixel's triple takes `clamp255(old + Share(err, w))` per channel, `w` being 7, 3, 5, 1 for the east, south-west, south and
south-east neighbours and 0 (unchanged) for every other pixel, itself included; no byte outside the scratch buffer changes. -/
def Obligations.DitherStepSharesErrorWithNeighbours : Prop :=
  ∀ (cfg : Config) (base : Word) (m : Memory) (wb : PixelBuffer) (x y : Nat),
    cfg.admitted = true → Memory.wf m = true → wb.length = cfg.nb → x < cfg.W → y < cfg.H →
    let c := rd888 m (panelEa cfg base x y)
    let gr := (299 * c.r.toNat + 587 * c.g.toNat + 114 * c.b.toNat) / 1000
    let err : Int := (gr : Int) - (if 128 < gr then 255 else 0)
    let out := ditherPixel cfg base (m, wb) (x, y)
    (∀ x' y', x' < cfg.W → y' < cfg.H →
      pixel cfg out.2 x' y' = if x' = x ∧ y' = y then decide (128 < gr) else pixel cfg wb x' y') ∧
    (∀ x' y', x' < cfg.W → y' < cfg.H →
      let weight : Int :=
        if x' = x + 1 ∧ y' = y then 7
        else if x' + 1 = x ∧ y' = y + 1 then 3
        else if x' = x ∧ y' = y + 1 then 5
        else if x' = x + 1 ∧ y' = y + 1 then 1
        else 0
      let q := share cfg.shareRule err weight
      let old := rd888 m (panelEa cfg base x' y')
      let new := rd888 out.1 (panelEa cfg base x' y')
      (new.r.toNat : Int) = max 0 (min 255 (old.r.toNat + q)) ∧
      (new.g.toNat : Int) = max 0 (min 255 (old.g.toNat + q)) ∧
      (new.b.toNat : Int) = max 0 (min 255 (old.b.toNat + q))) ∧
    (∀ a, (∀ off, off < 3 * (cfg.W * cfg.H) → a ≠ ea base off) → memRead out.1 a = memRead m a)

/-- R100, R105: FILLPANELRAW runs the step at every pixel once, pixel `k mod W` of row `k div W` as the `k`-th, each on what the one
before it left, and answers OK. -/
def Obligations.FillPanelRawVisitsInRasterOrder : Prop :=
  ∀ (addr : Word) (s : State), s.cfg.admitted = true → s.mode = .ready →
    ∃ pass : Nat → Memory × PixelBuffer,
      pass 0 = (s.mem, s.wb) ∧
      (∀ k, k < s.cfg.W * s.cfg.H →
        pass (k + 1) = ditherPixel s.cfg addr (pass k) (k % s.cfg.W, k / s.cfg.W)) ∧
      exec (.fillpanelraw addr) s =
        .next { s with mem := (pass (s.cfg.W * s.cfg.H)).1, wb := (pass (s.cfg.W * s.cfg.H)).2,
                       responses := s.responses ++ [{ status := .ok, data := 0 }] }

/-- R59, R105, R106 (e): the only bytes of memory FILLPANELRAW may change are those of the pixels after the first. -/
def Obligations.FillPanelRawKeepsOtherMemory : Prop :=
  ∀ (addr : Word) (s : State), s.mode = .ready →
    ∃ t, exec (.fillpanelraw addr) s = .next t ∧
      t = { s with mem := t.mem, wb := t.wb, responses := s.responses ++ [{ status := .ok, data := 0 }] } ∧
      ∀ a, (∀ x y, x < s.cfg.W → y < s.cfg.H → ¬(x = 0 ∧ y = 0) → ∀ i, i < 3 →
          a ≠ ea (panelEa s.cfg addr x y) i) →
        memRead t.mem a = memRead s.mem a

/-- R106 (b), (c): a uniform white panel comes out all lit and a uniform black one all unlit, the scratch buffer unchanged. -/
def Obligations.DitherKeepsUniformWhiteAndBlack : Prop :=
  ∀ (addr : Word) (s : State) (v : Byte), s.WellSized → s.mode = .ready → v = 0 ∨ v = 255 →
    (∀ off, off < 3 * (s.cfg.W * s.cfg.H) → memRead s.mem (ea addr off) = v) →
    exec (.fillpanelraw addr) s =
      .next { s with wb := List.replicate s.cfg.nb v, responses := s.responses ++ [{ status := .ok, data := 0 }] }

/-- R105: the previous content of WB has no influence on FILLPANELRAW. -/
def Obligations.FillPanelRawIgnoresOldWorkingBuffer : Prop :=
  ∀ (addr : Word) (s : State) (wb : PixelBuffer), s.WellSized → s.mode = .ready → wb.length = s.cfg.nb →
    ∃ t, exec (.fillpanelraw addr) s = .next t ∧ exec (.fillpanelraw addr) { s with wb := wb } = .next t

/-! ### Framebuffer manager and throttle (42_framebuffer_manager.md) -/

/-- R120, R122: SWAP copies WB into AB and then emits clear, whole-frame blit, present, in that order. -/
def Obligations.SwapCopiesAndPresents : Prop :=
  ∀ s : State, s.mode = .ready →
    exec .swap s = .next { s with
      ab := s.wb
      events := s.events ++ [.tClearFb, .tBlit 0 0 s.wb s.cfg.W s.cfg.H 1, .tPresent]
      responses := s.responses ++ [{ status := .ok, data := 0 }] }

/-- R121, R123: COPYFB copies AB into WB, emits nothing and leaves AB and LAST. -/
def Obligations.CopyFbRestoresActive : Prop :=
  ∀ s : State, s.mode = .ready →
    exec .copyfb s = .next { s with wb := s.ab, responses := s.responses ++ [{ status := .ok, data := 0 }] }

/-- R124: UPDATE refreshes iff at least 33 ms have elapsed modulo 2^32; then AB := WB, the three events, LAST := the sampled NOW and
data 1; otherwise nothing but data 0. -/
def Obligations.UpdateRefreshesWhenDue : Prop :=
  ∀ s : State, s.mode = .ready →
    (33 ≤ (s.now.toNat + 2 ^ 32 - s.last.toNat) % 2 ^ 32 →
      exec .update s = .next { s with
        ab := s.wb
        last := s.now
        events := s.events ++ [.tClearFb, .tBlit 0 0 s.wb s.cfg.W s.cfg.H 1, .tPresent]
        responses := s.responses ++ [{ status := .ok, data := 1 }] }) ∧
    ((s.now.toNat + 2 ^ 32 - s.last.toNat) % 2 ^ 32 < 33 →
      exec .update s = .next { s with responses := s.responses ++ [{ status := .ok, data := 0 }] })

/-- R125: CLEAR zeroes WB, leaves AB and LAST, and emits clear and present. -/
def Obligations.ClearBlanksWorkingAndDisplay : Prop :=
  ∀ s : State, s.mode = .ready →
    exec .clear s = .next { s with
      wb := List.replicate s.cfg.nb 0
      events := s.events ++ [.tClearFb, .tPresent]
      responses := s.responses ++ [{ status := .ok, data := 0 }] }

/-- R126, R68: SETBRT answers OK and changes nothing, whatever its level. -/
def Obligations.SetBrightnessChangesNothing : Prop :=
  ∀ (level : Byte) (s : State), s.mode = .ready →
    exec (.setbrt level) s = .next { s with responses := s.responses ++ [{ status := .ok, data := 0 }] }

/-- R127 (a), R72 (PRESENTNOW): SWAP then COPYFB leaves WB as it was and AB equal to it; LAST is untouched. -/
def Obligations.SwapThenCopyLeavesBuffersEqual : Prop :=
  ∀ s : State, s.mode = .ready →
    ∃ t u, exec .swap s = .next t ∧ exec .copyfb t = .next u ∧ u.wb = s.wb ∧ u.ab = s.wb ∧ u.last = s.last

/-- R190: for true times less than 2^32 ms apart the compare is exact across the wrap of the counter. -/
def Obligations.ThrottleIsExactAcrossClockWrap : Prop :=
  ∀ (s : State) (t0 t1 : Nat), s.mode = .ready → t0 ≤ t1 → t1 < t0 + 2 ^ 32 →
    s.last = BitVec.ofNat 32 t0 → s.now = BitVec.ofNat 32 t1 →
    ∃ t, exec .update s = .next t ∧
      (33 ≤ t1 - t0 → t.last = s.now ∧ t.ab = s.wb ∧ t.events.length = s.events.length + 3) ∧
      (t1 - t0 < 33 → t.last = s.last ∧ t.ab = s.ab ∧ t.events = s.events)

/-- R189: while LAST is still 0 in a READY block, whatever has been drawn, an UPDATE issued while the clock reads 0 to 32 does nothing
and one at 33 or later refreshes; the state after a reset that succeeded is such a state, at any clock value. -/
def Obligations.FirstUpdateAfterResetWaits : Prop :=
  (∀ s : State, s.mode = .ready → s.last = 0 →
    (s.now.toNat < 33 →
      exec .update s = .next { s with responses := s.responses ++ [{ status := .ok, data := 0 }] }) ∧
    (33 ≤ s.now.toNat →
      exec .update s = .next { s with
        ab := s.wb
        last := s.now
        events := s.events ++ [.tClearFb, .tBlit 0 0 s.wb s.cfg.W s.cfg.H 1, .tPresent]
        responses := s.responses ++ [{ status := .ok, data := 1 }] })) ∧
  (∀ (cfg : Config) (mem : Memory) (now : Word),
    (State.resetWith cfg true mem now).mode = .ready ∧ (State.resetWith cfg true mem now).last = 0 ∧
    (State.resetWith cfg true mem now).now = now)

/-- R124, 95_test_vectors.md S7: of three UPDATEs of which the first finds the interval elapsed, the second comes within 33 ms of it and
the third 33 ms or more after it, the first and the third present and the second does not. -/
def Obligations.UpdateTwiceWithinIntervalPresentsOnce : Prop :=
  ∀ (s : State) (n1 n2 n3 : Word), s.cfg.admitted = true → s.mode = .ready →
    s.port = [.issue (encode .update) n1, .issue (encode .update) n2, .issue (encode .update) n3] →
    33 ≤ (n1 - s.last).toNat → (n2 - n1).toNat < 33 → 33 ≤ (n3 - n1).toNat →
    ∃ t, run 3 s = .next t ∧
      t.events = s.events ++ [.tClearFb, .tBlit 0 0 s.wb s.cfg.W s.cfg.H 1, .tPresent]
        ++ [.tClearFb, .tBlit 0 0 s.wb s.cfg.W s.cfg.H 1, .tPresent] ∧
      t.responses = s.responses ++ [{ status := .ok, data := 1 }, { status := .ok, data := 0 },
        { status := .ok, data := 1 }] ∧
      t.last = n3

/-- R127 (d): UPDATEs at any number of true times within a window shorter than 33 ms, on a clock that does not run backwards, cause at
most one present. -/
def Obligations.UpdatesInOneIntervalPresentAtMostOnce : Prop :=
  ∀ (times : List Nat) (s : State), s.cfg.admitted = true →
    times.Pairwise (· ≤ ·) → (∀ t ∈ times, ∀ u ∈ times, u < t + 33) →
    s.port = times.map (fun t => .issue (encode .update) (BitVec.ofNat 32 t)) →
    ∃ u, run times.length s = .next u ∧
      u.events.count .tPresent ≤ s.events.count .tPresent + 1

/-! ### Zone and panel fills (43_zone_compositor.md) -/

/-- R140: the mapping of a zone index; a valid zone lies inside the panel, an index from NZ on would start below it and is refused by
both zone fills with RANGE before anything changes; and the valid zones tile the panel. -/
def Obligations.ZonesTileThePanel : Prop :=
  ∀ cfg : Config, cfg.admitted = true →
    (∀ idx, xOff cfg idx = (idx % (cfg.W / cfg.ZW)) * cfg.ZW ∧ yOff cfg idx = (idx / (cfg.W / cfg.ZW)) * cfg.ZH) ∧
    (∀ idx, idx < cfg.nz → xOff cfg idx + cfg.ZW ≤ cfg.W ∧ yOff cfg idx + cfg.ZH ≤ cfg.H) ∧
    (∀ idx, cfg.nz ≤ idx → cfg.H ≤ yOff cfg idx) ∧
    (∀ x y, x < cfg.W → y < cfg.H →
      ∃ idx, idx < cfg.nz ∧ xOff cfg idx ≤ x ∧ x < xOff cfg idx + cfg.ZW ∧ yOff cfg idx ≤ y ∧ y < yOff cfg idx + cfg.ZH ∧
        ∀ j, j < cfg.nz → xOff cfg j ≤ x → x < xOff cfg j + cfg.ZW → yOff cfg j ≤ y → y < yOff cfg j + cfg.ZH → j = idx) ∧
    (∀ (s : State) (idx addr : Word), s.cfg = cfg → s.mode = .ready → cfg.nz ≤ idx.toNat →
      exec (.fillzone888 idx addr) s = .next { s with responses := s.responses ++ [{ status := .range, data := 0 }] } ∧
      exec (.fillzone565 idx addr) s = .next { s with responses := s.responses ++ [{ status := .range, data := 0 }] })

/-- R141, R53: FILLZONE888 writes exactly the pixels of its zone, each to the threshold of its RGB888 triple in memory. -/
def Obligations.FillZone888DrawsItsZone : Prop :=
  ∀ (idx addr : Word) (s : State), s.WellSized → s.mode = .ready → idx.toNat < s.cfg.nz →
    ∃ wb : PixelBuffer,
      exec (.fillzone888 idx addr) s =
        .next { s with wb := wb, responses := s.responses ++ [{ status := .ok, data := 0 }] } ∧
      wb.length = s.wb.length ∧
      (∀ zx zy, zx < s.cfg.ZW → zy < s.cfg.ZH →
        pixel s.cfg wb (xOff s.cfg idx.toNat + zx) (yOff s.cfg idx.toNat + zy) =
          decide (128000 ≤ 299 * (memRead s.mem (ea addr (3 * (zy * s.cfg.ZW + zx)))).toNat
            + 587 * (memRead s.mem (ea addr (3 * (zy * s.cfg.ZW + zx) + 1))).toNat
            + 114 * (memRead s.mem (ea addr (3 * (zy * s.cfg.ZW + zx) + 2))).toNat)) ∧
      (∀ x y, x < s.cfg.W → y < s.cfg.H →
        ¬(xOff s.cfg idx.toNat ≤ x ∧ x < xOff s.cfg idx.toNat + s.cfg.ZW ∧
          yOff s.cfg idx.toNat ≤ y ∧ y < yOff s.cfg idx.toNat + s.cfg.ZH) →
        pixel s.cfg wb x y = pixel s.cfg s.wb x y)

/-- R142, R54, R42: the same of FILLZONE565, the word read low byte first. -/
def Obligations.FillZone565DrawsItsZone : Prop :=
  ∀ (idx addr : Word) (s : State), s.WellSized → s.mode = .ready → idx.toNat < s.cfg.nz →
    ∃ wb : PixelBuffer,
      exec (.fillzone565 idx addr) s =
        .next { s with wb := wb, responses := s.responses ++ [{ status := .ok, data := 0 }] } ∧
      wb.length = s.wb.length ∧
      (∀ zx zy, zx < s.cfg.ZW → zy < s.cfg.ZH →
        let w := (memRead s.mem (ea addr (2 * (zy * s.cfg.ZW + zx)))).toNat
          + 256 * (memRead s.mem (ea addr (2 * (zy * s.cfg.ZW + zx) + 1))).toNat
        pixel s.cfg wb (xOff s.cfg idx.toNat + zx) (yOff s.cfg idx.toNat + zy) =
          decide (128000 ≤ 2392 * (w / 2048) + 2348 * (w / 32 % 64) + 912 * (w % 32))) ∧
      (∀ x y, x < s.cfg.W → y < s.cfg.H →
        ¬(xOff s.cfg idx.toNat ≤ x ∧ x < xOff s.cfg idx.toNat + s.cfg.ZW ∧
          yOff s.cfg idx.toNat ≤ y ∧ y < yOff s.cfg idx.toNat + s.cfg.ZH) →
        pixel s.cfg wb x y = pixel s.cfg s.wb x y)

/-- R143, R55, R56: FILLPAL writes every pixel of WB to the threshold of the palette entry its index byte selects. -/
def Obligations.FillPalDrawsEveryPixel : Prop :=
  ∀ (addr pal : Word) (s : State), s.WellSized → s.mode = .ready →
    ∃ wb : PixelBuffer,
      exec (.fillpal addr pal) s =
        .next { s with wb := wb, responses := s.responses ++ [{ status := .ok, data := 0 }] } ∧
      wb.length = s.wb.length ∧
      ∀ x y, x < s.cfg.W → y < s.cfg.H →
        let i := (memRead s.mem (ea addr (y * s.cfg.W + x))).toNat
        pixel s.cfg wb x y =
          decide (128000 ≤ 299 * (memRead s.mem (ea pal (3 * i))).toNat
            + 587 * (memRead s.mem (ea pal (3 * i + 1))).toNat
            + 114 * (memRead s.mem (ea pal (3 * i + 2))).toNat)

/-- R144, R57: FILLPALCHG does the same where the index is flagged by a non-zero byte, and leaves the other pixels. -/
def Obligations.FillPalChgDrawsFlaggedPixels : Prop :=
  ∀ (addr pal flg : Word) (s : State), s.WellSized → s.mode = .ready →
    ∃ wb : PixelBuffer,
      exec (.fillpalchg addr pal flg) s =
        .next { s with wb := wb, responses := s.responses ++ [{ status := .ok, data := 0 }] } ∧
      wb.length = s.wb.length ∧
      ∀ x y, x < s.cfg.W → y < s.cfg.H →
        let i := (memRead s.mem (ea addr (y * s.cfg.W + x))).toNat
        pixel s.cfg wb x y =
          if memRead s.mem (ea flg i) = 0 then pixel s.cfg s.wb x y
          else decide (128000 ≤ 299 * (memRead s.mem (ea pal (3 * i))).toNat
            + 587 * (memRead s.mem (ea pal (3 * i + 1))).toNat
            + 114 * (memRead s.mem (ea pal (3 * i + 2))).toNat)

/-- R145: FILLSCR sets every byte of WB to 0xFF if the colour is lit and to 0x00 if not. -/
def Obligations.FillScrFillsEveryByte : Prop :=
  ∀ (c : Rgb) (s : State), s.WellSized → s.mode = .ready →
    exec (.fillscr c) s = .next { s with
      wb := List.replicate s.cfg.nb
        (if 128000 ≤ 299 * c.r.toNat + 587 * c.g.toNat + 114 * c.b.toNat then 0xFF else 0x00)
      responses := s.responses ++ [{ status := .ok, data := 0 }] }

/-- R148 (a), (b): with 256 non-zero flags FILLPALCHG is FILLPAL; with 256 zero flags it leaves WB as it was. -/
def Obligations.PaletteFlagsDecideTheFill : Prop :=
  ∀ (addr pal flg : Word) (s : State), s.WellSized → s.mode = .ready →
    ((∀ i, i < 256 → memRead s.mem (ea flg i) ≠ 0) →
      ∃ t, exec (.fillpalchg addr pal flg) s = .next t ∧ exec (.fillpal addr pal) s = .next t) ∧
    ((∀ i, i < 256 → memRead s.mem (ea flg i) = 0) →
      exec (.fillpalchg addr pal flg) s = .next { s with responses := s.responses ++ [{ status := .ok, data := 0 }] })

/-- R148 (c): a run of one FILLZONE888 per zone, each from its own tile, leaves in WB at every pixel the direct threshold of that pixel's
triple in its zone's tile. -/
def Obligations.AllZonesMakeTheWholePanel : Prop :=
  ∀ (s : State) (tile : Nat → Word) (now : Word), s.WellSized → s.mode = .ready →
    s.port = (List.range s.cfg.nz).map
      (fun i => .issue (encode (.fillzone888 (BitVec.ofNat 32 i) (tile i))) now) →
    ∃ t, run s.cfg.nz s = .next t ∧ t.mem = s.mem ∧ t.wb.length = s.wb.length ∧
      ∀ x y, x < s.cfg.W → y < s.cfg.H →
        pixel s.cfg t.wb x y = toMono888 (rd888 s.mem
          (zone888Ea s.cfg (tile ((y / s.cfg.ZH) * (s.cfg.W / s.cfg.ZW) + x / s.cfg.ZW)) (x % s.cfg.ZW) (y % s.cfg.ZH)))

/-- R59: what the read-only fills read. A memory that agrees on a fill's own bytes gives the same working buffer: the zone image; the
index buffer and the entries it selects; and for FILLPALCHG the flags of the indices met and the entries of the flagged ones only. -/
def Obligations.FillsReadOnlyTheirBuffers : Prop :=
  ∀ (s : State) (m : Memory) (idx addr pal flg : Word),
    ((∀ off, off < 3 * (s.cfg.ZW * s.cfg.ZH) → memRead m (ea addr off) = memRead s.mem (ea addr off)) →
      ∃ t, exec (.fillzone888 idx addr) s = .next t ∧
        exec (.fillzone888 idx addr) { s with mem := m } = .next { t with mem := m }) ∧
    ((∀ off, off < 2 * (s.cfg.ZW * s.cfg.ZH) → memRead m (ea addr off) = memRead s.mem (ea addr off)) →
      ∃ t, exec (.fillzone565 idx addr) s = .next t ∧
        exec (.fillzone565 idx addr) { s with mem := m } = .next { t with mem := m }) ∧
    ((∀ off, off < s.cfg.W * s.cfg.H → memRead m (ea addr off) = memRead s.mem (ea addr off)) →
      (∀ off, off < s.cfg.W * s.cfg.H → ∀ j, j < 3 →
        memRead m (ea pal (3 * (memRead s.mem (ea addr off)).toNat + j)) =
          memRead s.mem (ea pal (3 * (memRead s.mem (ea addr off)).toNat + j))) →
      ∃ t, exec (.fillpal addr pal) s = .next t ∧
        exec (.fillpal addr pal) { s with mem := m } = .next { t with mem := m }) ∧
    ((∀ off, off < s.cfg.W * s.cfg.H → memRead m (ea addr off) = memRead s.mem (ea addr off)) →
      (∀ off, off < s.cfg.W * s.cfg.H →
        memRead m (ea flg (memRead s.mem (ea addr off)).toNat) =
          memRead s.mem (ea flg (memRead s.mem (ea addr off)).toNat)) →
      (∀ off, off < s.cfg.W * s.cfg.H → memRead s.mem (ea flg (memRead s.mem (ea addr off)).toNat) ≠ 0 → ∀ j, j < 3 →
        memRead m (ea pal (3 * (memRead s.mem (ea addr off)).toNat + j)) =
          memRead s.mem (ea pal (3 * (memRead s.mem (ea addr off)).toNat + j))) →
      ∃ t, exec (.fillpalchg addr pal flg) s = .next t ∧
        exec (.fillpalchg addr pal flg) { s with mem := m } = .next { t with mem := m })

/-! ### Memory (20_memory.md) -/

/-- R41, R42, R47: effective addresses wrap modulo 2^32; RGB888 is R, G, B upward; RGB565 is low byte first. -/
def Obligations.MemoryPixelsAreReadInByteOrder : Prop :=
  (∀ (base : Word) (off : Nat), (ea base off).toNat = (base.toNat + off) % 2 ^ 32) ∧
  (∀ (m : Memory) (a : Word),
    rd888 m a = { r := memRead m a, g := memRead m (a + 1), b := memRead m (a + 2) } ∧
    (rd565 m a).toNat = (memRead m a).toNat + 256 * (memRead m (a + 1)).toNat)

/-- R45, R51: a byte the host stores between commands is what that address reads from then on, every other byte and the rest of the
state (but the host's list of moves) stay, and the memory stays canonical. -/
def Obligations.HostStoreIsReadBack : Prop :=
  ∀ (s : State) (a : Word) (v : Byte) (rest : List HostMove),
    s.cfg.admitted = true → Memory.wf s.mem = true → s.port = .store a v :: rest →
    ∃ m : Memory, step s = .next { s with port := rest, mem := m } ∧ Memory.wf m = true ∧ memRead m a = v ∧
      ∀ b, b ≠ a → memRead m b = memRead s.mem b

/-! ### Encoding (30_encoding.md) -/

/-- Decoding the encoding of any command gives the command back, every operand at every value (R60 to R66). -/
def Obligations.DecodeOfEncodeIsTheCommand : Prop :=
  ∀ i : Instr, decode (encode i) = .ok i

/-- R67: no row of the table of R66 matches a word iff it is illegal by the prose: W0[31:8] set, an unknown opcode, or a reserved operand
bit set; and the decoder rejects exactly those. -/
def Obligations.IllegalWordsAreThoseOfTheProse : Prop :=
  ∀ cmd : Command,
    ((∀ row ∈ opcodeTable, cmd &&& row.mask ≠ row.matchBits) ↔ wellFormedCommand cmd = false) ∧
    ((∃ i, decode cmd = .ok i) ↔ wellFormedCommand cmd = true)

/-- R66: at most one row can match a word. -/
def Obligations.OpcodeRowsNeverOverlap : Prop :=
  opcodeTable.length = 17 ∧
  opcodeTable.Pairwise fun a b => ∀ cmd : Command, ¬(cmd &&& a.mask = a.matchBits ∧ cmd &&& b.mask = b.matchBits)

/-- R68: the words a format leaves unused never change what a command decodes to. -/
def Obligations.UnusedOperandWordsAreIgnored : Prop :=
  ∀ (w0 a b c a' b' c' : Word) (f : Format), formatOfOpcode (opcodeOf w0) = some f →
    (f ≠ .N → a' = a) → (f = .P8 ∨ f = .P5 ∨ f = .XY ∨ f = .ZM ∨ f = .M2 ∨ f = .M3 → b' = b) →
    (f = .P8 ∨ f = .P5 ∨ f = .M3 → c' = c) →
    (decode (cmdOf w0 a' b' c')).toOption = (decode (cmdOf w0 a b c)).toOption

/-- Words of each family, written out from the encodings of R62 to R66 and R71, decode to the commands they stand for, two illegal ones (R67) to none. -/
def Obligations.SampleWordsDecode : Prop :=
  decodeTableWord 128 0x00FFFFFF0000000A0000000300000004 = some (.drawpix888 3 10 { r := 255, g := 255, b := 255 }) ∧
  decodeTableWord 64 0x0080402000000001 = some (.cvtmono888 { r := 0x80, g := 0x40, b := 0x20 }) ∧
  decodeTableWord 64 0x0000100000000010 = some (.fillpanelraw 0x1000) ∧
  decodeTableWord 96 0x000020000000000300000030 = some (.fillzone888 3 0x2000) ∧
  decodeTableWord 128 0x00005000000030000000400000000033 = some (.fillpalchg 0x4000 0x3000 0x5000) ∧
  decodeTableWord 128 0xDEADBEEFDEADBEEFDEADBEEF00000020 = some .swap ∧
  decodeTableWord 32 0x00000124 = none ∧
  decodeTableWord 64 0x0180808000000001 = none

/-! ### Refusals (60_exceptions.md) and the step (30_encoding.md R74) -/

/-- R74: when the next move is a command word that decodes to `i`, the step is `exec i` at the state that has taken the command off the
port with its clock sample. -/
def Obligations.StepRunsTheDecodedCommand : Prop :=
  ∀ (s : State) (cmd : Command) (now : Word) (rest : List HostMove) (i : Instr),
    s.cfg.admitted = true → s.port = .issue cmd now :: rest → decode cmd = .ok i →
    step s = exec i { s with port := rest, now := now }

/-- R161, R162: every command word gets exactly one response, the 16-bit word of R69; its status code is 0x03 iff MODE is HALTED; 0x02 iff
MODE is READY and no row of R66 matches; 0x01 iff MODE is READY and the command is a pixel command outside the panel or a zone fill of an
index from NZ on; there is no other code but 0x00; and with any of the three the data is 0. -/
def Obligations.EachRefusalHasItsCause : Prop :=
  ∀ (s : State) (cmd : Command) (now : Word) (rest : List HostMove),
    s.cfg.admitted = true → s.port = .issue cmd now :: rest →
    ∃ t r, step s = .next t ∧ t.responses = s.responses ++ [r] ∧ t.port = rest ∧
      let code := r.word.toNat / 256
      (code = 0x03 ↔ s.mode = .halted) ∧
      (code = 0x02 ↔ s.mode = .ready ∧ ∀ row ∈ opcodeTable, cmd &&& row.mask ≠ row.matchBits) ∧
      (code = 0x01 ↔ s.mode = .ready ∧
        ((∃ x y c, decode cmd = .ok (.drawpix888 x y c) ∧ (s.cfg.W ≤ x.toNat ∨ s.cfg.H ≤ y.toNat)) ∨
         (∃ x y w, decode cmd = .ok (.drawpix565 x y w) ∧ (s.cfg.W ≤ x.toNat ∨ s.cfg.H ≤ y.toNat)) ∨
         (∃ x y, decode cmd = .ok (.getpix x y) ∧ (s.cfg.W ≤ x.toNat ∨ s.cfg.H ≤ y.toNat)) ∨
         (∃ idx a, decode cmd = .ok (.fillzone888 idx a) ∧ s.cfg.nz ≤ idx.toNat) ∨
         (∃ idx a, decode cmd = .ok (.fillzone565 idx a) ∧ s.cfg.nz ≤ idx.toNat))) ∧
      code ≤ 0x03 ∧ (code ≠ 0x00 → r.word.toNat % 256 = 0)

/-- R163: a refused command changes nothing, and reads neither memory nor the clock: with any other memory and any other clock sample the
refusal is the same. -/
def Obligations.RefusalLeavesEverything : Prop :=
  ∀ (s t : State) (cmd : Command) (now : Word) (rest : List HostMove) (r : Response),
    s.port = .issue cmd now :: rest → step s = .next t → t.responses = s.responses ++ [r] → r.status ≠ .ok →
    r.data = 0 ∧
    ∀ (m : Memory) (n : Word),
      step { s with mem := m, port := .issue cmd n :: rest } =
        .next { s with mem := m, port := rest, now := n, responses := s.responses ++ [r] }

/-- R164, R162: in HALTED every command word, legal or not, is answered HALTED and has no effect. -/
def Obligations.HaltedRefusesEveryWord : Prop :=
  (∀ (s : State) (cmd : Command) (now : Word) (rest : List HostMove),
    s.cfg.admitted = true → s.mode = .halted → s.port = .issue cmd now :: rest →
    step s = .next { s with port := rest, now := now,
                            responses := s.responses ++ [{ status := .halted, data := 0 }] }) ∧
  (∀ (i : Instr) (s : State), s.mode = .halted →
    exec i s = .next { s with responses := s.responses ++ [{ status := .halted, data := 0 }] })

/-- R184, R160, R5: in an admitted configuration the machine always has a next state, and only a configuration outside R5 is refused
(that `step` refuses it is the model's reading of R5, log entry 8). -/
def Obligations.StepAlwaysCompletesWhenAdmitted : Prop :=
  ∀ s : State, (s.cfg.admitted = true → ∃ t, step s = .next t) ∧
    (s.cfg.admitted = false → step s = .refused .configNotAdmitted)

/-- R176: with no command presented the block is idle and keeps all its state (that idling is a step is the model's choice, log entry 5). -/
def Obligations.IdleBlockKeepsItsState : Prop :=
  ∀ s : State, s.cfg.admitted = true → s.port = [] → step s = .next s

/-! ### Whole-machine rules -/

/-- R10: only FILLPANELRAW changes memory; only UPDATE reads the clock; only SWAP, UPDATE and CLEAR emit events. -/
def Obligations.OnlyNamedCommandsTouchMemoryClockTransport : Prop :=
  ∀ (i : Instr) (s t : State), exec i s = .next t →
    ((∀ addr, i ≠ .fillpanelraw addr) → ∀ a, memRead t.mem a = memRead s.mem a) ∧
    (i ≠ .update → ∀ n : Word, exec i { s with now := n } = .next { t with now := n }) ∧
    (i ≠ .swap → i ≠ .update → i ≠ .clear → t.events = s.events)

/-- R23, R24, R29, R182: no step changes the configuration or MODE; LAST changes only by a refreshing UPDATE, to its clock sample; AB
changes only by SWAP or a refreshing UPDATE, to the whole of WB. -/
def Obligations.ModeLastAndActiveHaveTheirWriters : Prop :=
  ∀ s t : State, step s = .next t →
    t.cfg = s.cfg ∧ t.mode = s.mode ∧
    (t.last ≠ s.last → ∃ cmd now rest, s.port = .issue cmd now :: rest ∧ decode cmd = .ok .update ∧
      33 ≤ (now - s.last).toNat ∧ t.last = now) ∧
    (t.ab ≠ s.ab → ∃ cmd now rest, s.port = .issue cmd now :: rest ∧ t.ab = s.wb ∧
      (decode cmd = .ok .swap ∨ decode cmd = .ok .update ∧ 33 ≤ (now - s.last).toNat))

/-- R26, R28, R29, R5: the parameters stay admitted, both buffers keep NB bytes and the memory keeps its canonical form. -/
def Obligations.StepKeepsWellSized : Prop :=
  ∀ s t : State, s.WellSized → step s = .next t → t.WellSized

/-- R164: a block whose initialisation failed stays blank, with LAST 0 and no event after T_INIT. -/
def Obligations.StepKeepsHaltedBlank : Prop :=
  ∀ s t : State, s.HaltedStaysBlank → step s = .next t → t.HaltedStaysBlank

/-- R173, R127 (c): the output stays T_INIT followed by complete event sequences, every blit a whole frame. -/
def Obligations.StepKeepsEventsComplete : Prop :=
  ∀ s t : State, s.WellSized → s.EventsComplete → step s = .next t → t.EventsComplete

/-- R127 (b), R29: AB stays what the most recent blit carried, whatever is drawn. -/
def Obligations.StepKeepsActiveIsLastBlit : Prop :=
  ∀ s t : State, s.ActiveIsLastBlit → step s = .next t → t.ActiveIsLastBlit

/-- R180: after reset every byte of WB and AB is 0, LAST is 0, T_INIT has been emitted and nothing else, MODE is READY or HALTED as the
transport answered, and external memory and the clock input are as they were. -/
def Obligations.ResetLeavesTheStatedValues : Prop :=
  ∀ (cfg : Config) (ok : Bool) (mem : Memory) (now : Word),
    let s := State.resetWith cfg ok mem now
    (∀ i, i < cfg.nb → s.wb[i]? = some 0 ∧ s.ab[i]? = some 0) ∧ s.wb.length = cfg.nb ∧ s.ab.length = cfg.nb ∧
    s.last = 0 ∧ s.events = [.tInit cfg.dispAddr] ∧ (ok = true → s.mode = .ready) ∧ (ok = false → s.mode = .halted) ∧
    s.mem = mem ∧ s.now = now

/-- Every reset state of an admitted configuration over a canonical memory meets every invariant, `State.reset` among them (its geometry
and its successful initialisation are the model's choice, log entries 1 and 3). -/
def Obligations.ResetMeetsEveryInvariant : Prop :=
  (∀ (cfg : Config) (ok : Bool) (mem : Memory) (now : Word), cfg.admitted = true → Memory.wf mem = true →
    let s := State.resetWith cfg ok mem now
    s.WellSized ∧ s.HaltedStaysBlank ∧ s.EventsComplete ∧ s.ActiveIsLastBlit) ∧
  (State.reset.WellSized ∧ State.reset.mode = .ready)

/-! ### Host-side expansions (30_encoding.md R72, 43_zone_compositor.md R147) -/

/-- R72: DRAWLIT lights its pixel and DRAWUNLIT unlights it. -/
def Obligations.DrawLitAndUnlitWriteTheirBit : Prop :=
  ∀ (x y : Word) (s : State), s.WellSized → s.mode = .ready → x.toNat < s.cfg.W → y.toNat < s.cfg.H →
    (∃ t, exec (drawLit x y) s = .next t ∧ pixel s.cfg t.wb x.toNat y.toNat = true) ∧
    (∃ t, exec (drawUnlit x y) s = .next t ∧ pixel s.cfg t.wb x.toNat y.toNat = false)

/-- R147: every draw of TEXT is a pixel of one of its 4 by 6 cells, lit iff its glyph bit differs from the inversion flag, and a
transparent text draws no unlit pixel (the bit order, the advance and the order of the flags are the spec's own; coordinates modulo
2^32 are the model's, log entry 16). -/
def Obligations.TextDrawsItsCells : Prop :=
  ∀ (glyph : Nat → Nat → Byte) (chars : List Nat) (x0 y0 : Nat) (transparent invert : Bool) (i : Instr),
    i ∈ text glyph chars x0 y0 transparent invert ↔
      ∃ k c j, k < chars.length ∧ c < 4 ∧ j < 6 ∧
        let lit := (glyph (chars.getD k 0) c).getLsbD j != invert
        (lit = true ∨ transparent = false) ∧
        i = (if lit then drawLit else drawUnlit) (BitVec.ofNat 32 (x0 + 4 * k + c)) (BitVec.ofNat 32 (y0 + j))
end

