-- ==== Sys2Proof/Laws/Command.lean ====
section
/-! SUPPORT. The words of a command assembled from its words, and the operand fields of an assembled operand word. -/

namespace Sys2Proof.Machine

@[simp] theorem cmdW0_cmdOf (w0 a b c : Word) : cmdW0 (cmdOf w0 a b c) = w0 := by
  apply BitVec.eq_of_getLsbD_eq
  intro i hi
  have h0 : i < 32 := hi
  simp only [cmdW0, cmdOf, BitVec.getLsbD_append, BitVec.getLsbD_extractLsb']
  simp [h0]

@[simp] theorem cmdA_cmdOf (w0 a b c : Word) : cmdA (cmdOf w0 a b c) = a := by
  apply BitVec.eq_of_getLsbD_eq
  intro i hi
  have h0 : i < 32 := hi
  simp only [cmdA, cmdOf, BitVec.getLsbD_append, BitVec.getLsbD_extractLsb']
  simp [h0]

@[simp] theorem cmdB_cmdOf (w0 a b c : Word) : cmdB (cmdOf w0 a b c) = b := by
  apply BitVec.eq_of_getLsbD_eq
  intro i hi
  have h0 : i < 32 := hi
  have h1 : ¬ 64 + i < 32 := by omega
  have h2 : 64 + i - 32 = 32 + i := by omega
  simp only [cmdB, cmdOf, BitVec.getLsbD_append, BitVec.getLsbD_extractLsb']
  simp [h0, h1, h2]

@[simp] theorem cmdC_cmdOf (w0 a b c : Word) : cmdC (cmdOf w0 a b c) = c := by
  apply BitVec.eq_of_getLsbD_eq
  intro i hi
  have h0 : i < 32 := hi
  have h1 : ¬ 96 + i < 32 := by omega
  have h2 : 96 + i - 32 = 64 + i := by omega
  have h3 : ¬ 64 + i < 32 := by omega
  have h4 : 64 + i - 32 = 32 + i := by omega
  simp only [cmdC, cmdOf, BitVec.getLsbD_append, BitVec.getLsbD_extractLsb']
  simp [h0, h1, h2, h3, h4]

/-- A command is the assembly of its four words (30_encoding.md R60). -/
theorem cmdOf_words (cmd : Command) : cmdOf (cmdW0 cmd) (cmdA cmd) (cmdB cmd) (cmdC cmd) = cmd := by
  apply BitVec.eq_of_getLsbD_eq
  intro i hi
  simp only [cmdOf, cmdW0, cmdA, cmdB, cmdC, BitVec.getLsbD_append, BitVec.getLsbD_extractLsb']
  split
  · next h => simp [h]
  · split
    · next h1 h2 =>
      simp only [h2, decide_true, Bool.true_and]
      congr 1; omega
    · split
      · next h1 h2 h3 =>
        simp only [h3, decide_true, Bool.true_and]
        congr 1; omega
      · next h1 h2 h3 =>
        have h4 : i - 32 - 32 - 32 < 32 := by omega
        simp only [h4, decide_true, Bool.true_and]
        congr 1; omega

@[simp] theorem colour888_word888 (c : Rgb) : colour888 (word888 c) = c := by
  obtain ⟨r, g, b⟩ := c
  simp only [colour888, word888, Rgb.mk.injEq]
  refine ⟨?_, ?_, ?_⟩ <;> apply BitVec.eq_of_getLsbD_eq <;> intro i hi
  · have h0 : i < 8 := hi
    have h1 : ¬ 16 + i < 8 := by omega
    have h2 : 16 + i - 8 = 8 + i := by omega
    simp only [BitVec.getLsbD_append, BitVec.getLsbD_extractLsb']
    simp [h0, h1, h2]
  · have h0 : i < 8 := hi
    simp only [BitVec.getLsbD_append, BitVec.getLsbD_extractLsb']
    simp [h0]
  · have h0 : i < 8 := hi
    simp only [BitVec.getLsbD_append, BitVec.getLsbD_extractLsb']
    simp [h0]

@[simp] theorem colour565_word565 (w : Half) : colour565 (word565 w) = w := by
  apply BitVec.eq_of_getLsbD_eq
  intro i hi
  have h0 : i < 16 := hi
  simp only [colour565, word565, BitVec.getLsbD_append, BitVec.getLsbD_extractLsb']
  simp [h0]

@[simp] theorem levelOf_wordLevel (l : Byte) : levelOf (wordLevel l) = l := by
  apply BitVec.eq_of_getLsbD_eq
  intro i hi
  have h0 : i < 8 := hi
  simp only [levelOf, wordLevel, BitVec.getLsbD_append, BitVec.getLsbD_extractLsb']
  simp [h0]

/-- The reserved bits of an assembled operand word are zero (30_encoding.md R62). -/
@[simp] theorem word888_reserved (c : Rgb) : (word888 c).extractLsb' 24 8 = 0 := by
  apply BitVec.eq_of_getLsbD_eq
  intro i hi
  have h0 : i < 8 := hi
  have h1 : ¬ 24 + i < 8 := by omega
  have h2 : ¬ 24 + i - 8 < 8 := by omega
  have h3 : ¬ 24 + i - 8 - 8 < 8 := by omega
  simp only [word888, BitVec.getLsbD_append, BitVec.getLsbD_extractLsb']
  simp [h0, h1, h2, h3]

@[simp] theorem word565_reserved (w : Half) : (word565 w).extractLsb' 16 16 = 0 := by
  apply BitVec.eq_of_getLsbD_eq
  intro i hi
  have h0 : i < 16 := hi
  simp only [word565, BitVec.getLsbD_append, BitVec.getLsbD_extractLsb']
  simp [h0]

@[simp] theorem wordLevel_reserved (l : Byte) : (wordLevel l).extractLsb' 8 24 = 0 := by
  apply BitVec.eq_of_getLsbD_eq
  intro i hi
  have h0 : i < 24 := hi
  simp only [wordLevel, BitVec.getLsbD_append, BitVec.getLsbD_extractLsb']
  simp [h0]

end Sys2Proof.Machine
end

