-- ==== Sys2Proof/Laws/Convert.lean ====
section
/-! SUPPORT. Bounds of the colour converter (spec 40_color_reducer.md R80 to R85). -/

namespace Sys2Proof.Machine

theorem lumSum_le (c : Rgb) : lumSum c ≤ 255000 := by
  have := c.r.isLt; have := c.g.isLt; have := c.b.isLt
  unfold lumSum; omega

theorem toGray888_le (c : Rgb) : toGray888 c ≤ 255 := by
  have := lumSum_le c
  unfold toGray888; omega

theorem toGray888_uniform (v : Byte) : toGray888 { r := v, g := v, b := v } = v.toNat := by
  unfold toGray888 lumSum; dsimp only; omega

theorem toMono888_iff (c : Rgb) : toMono888 c = true ↔ 128000 ≤ lumSum c := by
  simp [toMono888]

theorem unpack565_r (w : Half) : (unpack565 w).r.toNat = 8 * (w.toNat / 2048) := by
  have := w.isLt
  simp only [unpack565, BitVec.toNat_append, BitVec.extractLsb'_toNat, BitVec.toNat_ofNat, Nat.shiftRight_eq_div_pow]
  rw [show (0 % 2 ^ 3) = 0 by rfl, Nat.or_zero, Nat.shiftLeft_eq]
  omega

theorem unpack565_g (w : Half) : (unpack565 w).g.toNat = 4 * (w.toNat / 32 % 64) := by
  simp only [unpack565, BitVec.toNat_append, BitVec.extractLsb'_toNat, BitVec.toNat_ofNat, Nat.shiftRight_eq_div_pow]
  rw [show (0 % 2 ^ 2) = 0 by rfl, Nat.or_zero, Nat.shiftLeft_eq]
  omega

theorem unpack565_b (w : Half) : (unpack565 w).b.toNat = 8 * (w.toNat % 32) := by
  simp only [unpack565, BitVec.toNat_append, BitVec.extractLsb'_toNat, BitVec.toNat_ofNat, Nat.shiftRight_eq_div_pow]
  rw [show (0 % 2 ^ 3) = 0 by rfl, Nat.or_zero, Nat.shiftLeft_eq]
  omega

end Sys2Proof.Machine
end

