-- ==== Sys2Proof/Laws/Decode.lean ====
section
/-! SUPPORT. Decoding said by words: what `decode` gives on a command assembled from its four words (`decode_words`), so that no proof
unfolds the opcode table again. -/

namespace Sys2Proof.Machine

theorem cmdOf_inj {w0 a b c w0' a' b' c' : Word} : cmdOf w0 a b c = cmdOf w0' a' b' c' ↔ w0 = w0' ∧ a = a' ∧ b = b' ∧ c = c' := by
  constructor
  · intro h
    refine ⟨?_, ?_, ?_, ?_⟩
    · simpa using congrArg cmdW0 h
    · simpa using congrArg cmdA h
    · simpa using congrArg cmdB h
    · simpa using congrArg cmdC h
  · rintro ⟨rfl, rfl, rfl, rfl⟩; rfl
theorem cmdOf_and (w0 a b c w0' a' b' c' : Word) : cmdOf w0 a b c &&& cmdOf w0' a' b' c' = cmdOf (w0 &&& w0') (a &&& a') (b &&& b') (c &&& c') := by
  apply BitVec.eq_of_getLsbD_eq
  intro i hi
  rw [BitVec.getLsbD_and]
  simp only [cmdOf, BitVec.getLsbD_append]
  split
  · simp
  · split
    · simp
    · split <;> simp
/-- Selecting a row, by words: `v` is the row's opcode, `ma`, `mb`, `mc` its reserved operand bits. -/
def selW (v ma mb mc w0 a b c : Word) : Bool := w0 == v && (a &&& ma) == 0 && (b &&& mb) == 0 && (c &&& mc) == 0
theorem selects_words {row : Row} (v ma mb mc : Word) (hm : row.mask = cmdOf 0xFFFFFFFF ma mb mc) (hv : row.matchBits = cmdOf v 0 0 0) (w0 a b c : Word) :
   row.selects (cmdOf w0 a b c) = selW v ma mb mc w0 a b c := by
  unfold Row.selects selW
  rw [hm, hv, cmdOf_and]
  rw [Bool.eq_iff_iff]
  simp only [beq_iff_eq, Bool.and_eq_true, cmdOf_inj]
  have : w0 &&& 0xFFFFFFFF = w0 := BitVec.and_allOnes
  rw [this]; tauto
/-- Decoding by words: the opcode selects the format, whose reserved bits must be zero (30_encoding.md R62, R66). -/
def wordsDecode (w0 a b c : Word) : Option Instr :=
  match w0.toNat with
  | 0x01 => if a &&& 0xFF000000 = 0 then some (.cvtmono888 (colour888 a)) else none
  | 0x02 => if a &&& 0xFFFF0000 = 0 then some (.cvtmono565 (colour565 a)) else none
  | 0x03 => if a &&& 0xFF000000 = 0 then some (.cvtgray888 (colour888 a)) else none
  | 0x04 => if c &&& 0xFF000000 = 0 then some (.drawpix888 a b (colour888 c)) else none
  | 0x05 => if c &&& 0xFFFF0000 = 0 then some (.drawpix565 a b (colour565 c)) else none
  | 0x06 => some (.getpix a b)
  | 0x10 => some (.fillpanelraw a)
  | 0x20 => some .swap
  | 0x21 => some .copyfb
  | 0x22 => some .update
  | 0x23 => some .clear
  | 0x24 => if a &&& 0xFFFFFF00 = 0 then some (.setbrt (levelOf a)) else none
  | 0x30 => some (.fillzone888 a b)
  | 0x31 => some (.fillzone565 a b)
  | 0x32 => some (.fillpal a b)
  | 0x33 => some (.fillpalchg a b c)
  | 0x34 => if a &&& 0xFF000000 = 0 then some (.fillscr (colour888 a)) else none
  | _ => none
theorem find_ops (ps : List (Row × (Word × Word × Word × Word))) (h : ∀ p ∈ ps, p.1.mask = cmdOf 0xFFFFFFFF p.2.2.1 p.2.2.2.1 p.2.2.2.2 ∧ p.1.matchBits = cmdOf p.2.1 0 0 0) (w0 a b c : Word) :
   (ps.map (·.1)).find? (·.selects (cmdOf w0 a b c)) = (ps.find? (fun p => selW p.2.1 p.2.2.1 p.2.2.2.1 p.2.2.2.2 w0 a b c)).map (·.1) := by
  induction ps with
  | nil => rfl
  | cons p ps ih =>
    rw [List.map_cons, List.find?_cons, List.find?_cons, selects_words _ _ _ _ (h p (by simp)).1 (h p (by simp)).2]
    split
    · rfl
    · exact ih fun q hq => h q (by simp [hq])
/-- Opcode and reserved operand bits of each row of 30_encoding.md R66, in its order. -/
def opWords : List (Word × Word × Word × Word) := [
  (0x01, 0xFF000000, 0, 0), (0x02, 0xFFFF0000, 0, 0), (0x03, 0xFF000000, 0, 0), (0x04, 0, 0, 0xFF000000),
  (0x05, 0, 0, 0xFFFF0000), (0x06, 0, 0, 0), (0x10, 0, 0, 0), (0x20, 0, 0, 0), (0x21, 0, 0, 0), (0x22, 0, 0, 0),
  (0x23, 0, 0, 0), (0x24, 0xFFFFFF00, 0, 0), (0x30, 0, 0, 0), (0x31, 0, 0, 0), (0x32, 0, 0, 0), (0x33, 0, 0, 0),
  (0x34, 0xFF000000, 0, 0)]
theorem table_words : (opcodeTable.zip opWords).map (·.1) = opcodeTable := rfl
theorem table_ok : ∀ p ∈ opcodeTable.zip opWords, p.1.mask = cmdOf 0xFFFFFFFF p.2.2.1 p.2.2.2.1 p.2.2.2.2 ∧ p.1.matchBits = cmdOf p.2.1 0 0 0 := by decide
theorem toOption_decode (w0 a b c : Word) : (decode (cmdOf w0 a b c)).toOption = ((opcodeTable.zip opWords).find? (fun p => selW p.2.1 p.2.2.1 p.2.2.2.1 p.2.2.2.2 w0 a b c)).map (fun p => p.1.operands a b c) := by
  have h1 : opcodeTable.find? (·.selects (cmdOf w0 a b c)) = ((opcodeTable.zip opWords).find? (fun p => selW p.2.1 p.2.2.1 p.2.2.2.1 p.2.2.2.2 w0 a b c)).map (·.1) := by
    conv_lhs => rw [← table_words]
    exact find_ops _ table_ok _ _ _ _
  unfold decode
  rw [h1]
  simp only [cmdA_cmdOf, cmdB_cmdOf, cmdC_cmdOf]
  cases (opcodeTable.zip opWords).find? (fun p => selW p.2.1 p.2.2.1 p.2.2.2.1 p.2.2.2.2 w0 a b c) <;> rfl
/-- What `decode` gives on a command assembled from its words. -/
theorem decode_words (w0 a b c : Word) : (decode (cmdOf w0 a b c)).toOption = wordsDecode w0 a b c := by
  rw [toOption_decode]
  unfold wordsDecode
  simp only [opcodeTable, pixelRows, frameRows, fillRows, opWords, List.cons_append, List.nil_append, List.zip_cons_cons, List.zip_nil_right, List.find?_cons, List.find?_nil, selW]
  have hne : ∀ (n : Nat), (w0.toNat = n → False) → n < 2 ^ 32 → (w0 == BitVec.ofNat 32 n) = false := fun n h hn => by
    rw [beq_eq_false_iff_ne]; rintro rfl; exact h (by rw [BitVec.toNat_ofNat]; exact Nat.mod_eq_of_lt hn)
  have heq : ∀ n : Nat, w0.toNat = n → w0 = BitVec.ofNat 32 n := fun n h => by
    rw [← h, BitVec.ofNat_toNat, BitVec.setWidth_eq]
  generalize hL : Option.map _ _ = L
  split
  case h_18 =>
    next h1 h2 h3 h4 h5 h6 h7 h8 h9 h10 h11 h12 h13 h14 h15 h16 h17 =>
    subst hL
    rw [show (w0 == (1 : Word)) = false from hne 1 h1 (by decide),
      show (w0 == (2 : Word)) = false from hne 2 h2 (by decide),
      show (w0 == (3 : Word)) = false from hne 3 h3 (by decide),
      show (w0 == (4 : Word)) = false from hne 4 h4 (by decide),
      show (w0 == (5 : Word)) = false from hne 5 h5 (by decide),
      show (w0 == (6 : Word)) = false from hne 6 h6 (by decide),
      show (w0 == (16 : Word)) = false from hne 16 h7 (by decide),
      show (w0 == (32 : Word)) = false from hne 32 h8 (by decide),
      show (w0 == (33 : Word)) = false from hne 33 h9 (by decide),
      show (w0 == (34 : Word)) = false from hne 34 h10 (by decide),
      show (w0 == (35 : Word)) = false from hne 35 h11 (by decide),
      show (w0 == (36 : Word)) = false from hne 36 h12 (by decide),
      show (w0 == (48 : Word)) = false from hne 48 h13 (by decide),
      show (w0 == (49 : Word)) = false from hne 49 h14 (by decide),
      show (w0 == (50 : Word)) = false from hne 50 h15 (by decide),
      show (w0 == (51 : Word)) = false from hne 51 h16 (by decide),
      show (w0 == (52 : Word)) = false from hne 52 h17 (by decide)]
    rfl
  all_goals
    next h =>
    obtain rfl := heq _ h
    subst hL
    simp
    try (
      generalize hb : (_ == (0#32 : Word)) = t
      cases t
      · rw [if_neg (by simpa using hb)]; rfl
      · rw [if_pos (by simpa using hb)]; rfl)

/-! The reserved bits of R62 as masks and as fields, and the opcode of a word whose high bits are zero. -/

theorem toOption_decode_eq_some {c : Command} {i : Instr} : (decode c).toOption = some i ↔ decode c = .ok i := by
  cases decode c <;> simp [Except.toOption]

theorem reserved_mask (x m : Word) (k n : Nat) (hk : k + n = 32) (hm : m = BitVec.allOnes 32 <<< k) : x &&& m = 0 ↔ x.extractLsb' k n = 0 := by
  subst hm
  rw [BitVec.eq_of_getLsbD_eq_iff, BitVec.eq_of_getLsbD_eq_iff]
  constructor
  · intro h i hi
    have := h (k+i) (by omega)
    simpa [BitVec.getLsbD_extractLsb', hi, show k + i < 32 by omega, -BitVec.reduceAllOnes] using this
  · intro h i hi
    by_cases hki : k ≤ i
    · have := h (i-k) (by omega)
      simp [show i - k < n by omega, show k + (i-k) = i by omega] at this
      simp [this]
    · simp [show i < k by omega]

theorem reserved_24 (x : Word) : (x &&& 0xFF000000 = 0) ↔ x.extractLsb' 24 8 = 0 := reserved_mask x _ 24 8 rfl (by decide)

theorem reserved_16 (x : Word) : (x &&& 0xFFFF0000 = 0) ↔ x.extractLsb' 16 16 = 0 := reserved_mask x _ 16 16 rfl (by decide)

theorem reserved_8 (x : Word) : (x &&& 0xFFFFFF00 = 0) ↔ x.extractLsb' 8 24 = 0 := reserved_mask x _ 8 24 rfl (by decide)

theorem opcode_of_word0 (w0 : Word) (h : w0.extractLsb' 8 24 = 0) : w0.toNat = (opcodeOf w0).toNat := by
  have h1 : (w0.extractLsb' 8 24).toNat = 0 := by rw [h]; rfl
  have h2 : w0.toNat / 256 % 2^24 = 0 := by simpa [BitVec.extractLsb'_toNat, Nat.shiftRight_eq_div_pow] using h1
  have h3 : (opcodeOf w0).toNat = w0.toNat % 256 := by simp [opcodeOf, BitVec.extractLsb'_toNat]
  have := w0.isLt
  omega

theorem word0_high_zero (w0 : Word) (h : w0.toNat < 256) : w0.extractLsb' 8 24 = 0 := by
  apply BitVec.eq_of_toNat_eq
  simp [BitVec.extractLsb'_toNat, Nat.shiftRight_eq_div_pow]
  omega

end Sys2Proof.Machine
end

