-- ==== Sys2Proof/Laws/Memory.lean ====
section
/-! SUPPORT. The laws of external memory: read after write, canonical form kept by every write, equal reads make equal lists. -/

namespace Sys2Proof.Machine

theorem Memory.wfFrom_cons {lo k : Nat} {v : Byte} {m : Memory} :
    Memory.wfFrom lo ((k, v) :: m) = true ↔
      lo ≤ k ∧ k < 2 ^ 32 ∧ v ≠ unlistedByte ∧ Memory.wfFrom (k + 1) m = true := by
  simp [Memory.wfFrom, and_assoc]

theorem Memory.wfFrom_mono {lo lo' : Nat} (h : lo' ≤ lo) {m : Memory} (hm : Memory.wfFrom lo m = true) :
    Memory.wfFrom lo' m = true := by
  cases m with
  | nil => rfl
  | cons c m =>
    obtain ⟨k, v⟩ := c
    rw [Memory.wfFrom_cons] at hm ⊢
    exact ⟨h.trans hm.1, hm.2⟩

theorem Memory.lookup_below {m : Memory} : ∀ {lo a : Nat}, Memory.wfFrom lo m = true → a < lo →
    Memory.lookup m a = unlistedByte := by
  induction m with
  | nil => intros; rfl
  | cons c m ih =>
    obtain ⟨k, v⟩ := c
    intro lo a hm ha
    rw [Memory.wfFrom_cons] at hm
    rw [Memory.lookup, if_neg (by omega)]
    exact ih hm.2.2.2 (by omega)

theorem Memory.lookup_insert_same {m : Memory} : ∀ {lo : Nat} (a : Nat) (v : Byte), Memory.wfFrom lo m = true →
    Memory.lookup (Memory.insert m a v) a = v := by
  induction m with
  | nil =>
    intro lo a v _
    by_cases hv : v = unlistedByte <;> simp [Memory.insert, Memory.lookup, hv]
  | cons c m ih =>
    obtain ⟨k, w⟩ := c
    intro lo a v hm
    have hm' := Memory.wfFrom_cons.1 hm
    rcases Nat.lt_trichotomy a k with h | h | h
    · rw [Memory.insert, if_pos h]
      by_cases hv : v = unlistedByte
      · rw [if_pos hv, Memory.lookup, if_neg (by omega), hv]
        exact Memory.lookup_below hm'.2.2.2 (by omega)
      · rw [if_neg hv]; simp [Memory.lookup]
    · subst h
      rw [Memory.insert, if_neg (by omega), if_pos rfl]
      by_cases hv : v = unlistedByte
      · rw [if_pos hv, hv]
        exact Memory.lookup_below hm'.2.2.2 (by omega)
      · rw [if_neg hv]; simp [Memory.lookup]
    · rw [Memory.insert, if_neg (by omega), if_neg (by omega), Memory.lookup, if_neg (by omega)]
      exact ih a v hm'.2.2.2

theorem Memory.lookup_insert_other {m : Memory} (a b : Nat) (v : Byte) (hb : b ≠ a) :
    Memory.lookup (Memory.insert m a v) b = Memory.lookup m b := by
  induction m with
  | nil => by_cases hv : v = unlistedByte <;> simp [Memory.insert, Memory.lookup, hv, hb]
  | cons c m ih =>
    obtain ⟨k, w⟩ := c
    rcases Nat.lt_trichotomy a k with h | h | h
    · rw [Memory.insert, if_pos h]
      by_cases hv : v = unlistedByte
      · rw [if_pos hv]
      · rw [if_neg hv, Memory.lookup, if_neg hb]
    · subst h
      rw [Memory.insert, if_neg (by omega), if_pos rfl]
      by_cases hv : v = unlistedByte
      · rw [if_pos hv, Memory.lookup, if_neg hb]
      · rw [if_neg hv, Memory.lookup, if_neg hb, Memory.lookup, if_neg hb]
    · rw [Memory.insert, if_neg (by omega), if_neg (by omega), Memory.lookup, Memory.lookup]
      by_cases hk : b = k
      · rw [if_pos hk, if_pos hk]
      · rw [if_neg hk, if_neg hk, ih]

theorem Memory.wfFrom_insert {m : Memory} : ∀ {lo a : Nat} {v : Byte}, lo ≤ a → a < 2 ^ 32 →
    Memory.wfFrom lo m = true → Memory.wfFrom lo (Memory.insert m a v) = true := by
  induction m with
  | nil =>
    intro lo a v hlo ha _
    by_cases hv : v = unlistedByte
    · simp [Memory.insert, hv, Memory.wfFrom]
    · rw [Memory.insert, if_neg hv, Memory.wfFrom_cons]
      exact ⟨hlo, ha, hv, rfl⟩
  | cons c m ih =>
    obtain ⟨k, w⟩ := c
    intro lo a v hlo ha hm
    have hm' := Memory.wfFrom_cons.1 hm
    obtain ⟨h1, h2, h3, h4⟩ := hm'
    rcases Nat.lt_trichotomy a k with h | h | h
    · rw [Memory.insert, if_pos h]
      by_cases hv : v = unlistedByte
      · rwa [if_pos hv]
      · rw [if_neg hv, Memory.wfFrom_cons]
        exact ⟨hlo, ha, hv, Memory.wfFrom_cons.2 ⟨by omega, h2, h3, h4⟩⟩
    · subst h
      rw [Memory.insert, if_neg (by omega), if_pos rfl]
      by_cases hv : v = unlistedByte
      · rw [if_pos hv]; exact Memory.wfFrom_mono (by omega) h4
      · rw [if_neg hv, Memory.wfFrom_cons]; exact ⟨hlo, ha, hv, h4⟩
    · rw [Memory.insert, if_neg (by omega), if_neg (by omega), Memory.wfFrom_cons]
      exact ⟨h1, h2, h3, ih (by omega) ha h4⟩

theorem Memory.ext_of_lookup {m : Memory} : ∀ {m' : Memory} {lo lo' : Nat}, Memory.wfFrom lo m = true →
    Memory.wfFrom lo' m' = true → (∀ a, Memory.lookup m a = Memory.lookup m' a) → m = m' := by
  induction m with
  | nil =>
    intro m' lo lo' _ hm' h
    cases m' with
    | nil => rfl
    | cons c m' =>
      obtain ⟨k, v⟩ := c
      have := h k
      simp only [Memory.lookup, if_pos] at this
      exact absurd this.symm (Memory.wfFrom_cons.1 hm').2.2.1
  | cons c m ih =>
    obtain ⟨k, v⟩ := c
    intro m' lo lo' hm hm' h
    obtain ⟨h1, h2, h3, h4⟩ := Memory.wfFrom_cons.1 hm
    cases m' with
    | nil =>
      have := h k
      simp only [Memory.lookup, if_pos] at this
      exact absurd this h3
    | cons c' m' =>
      obtain ⟨k', v'⟩ := c'
      obtain ⟨h1', h2', h3', h4'⟩ := Memory.wfFrom_cons.1 hm'
      have hk : k = k' := by
        rcases Nat.lt_trichotomy k k' with hlt | heq | hgt
        · have e := h k
          rw [Memory.lookup, if_pos rfl, Memory.lookup, if_neg (by omega), Memory.lookup_below h4' (by omega)] at e
          exact absurd e h3
        · exact heq
        · have e := h k'
          rw [Memory.lookup, if_neg (by omega), Memory.lookup_below h4 (by omega), Memory.lookup, if_pos rfl] at e
          exact absurd e.symm h3'
      subst hk
      have hv : v = v' := by simpa [Memory.lookup] using h k
      subst hv
      congr 1
      refine ih h4 h4' fun a => ?_
      by_cases ha : a = k
      · subst ha
        rw [Memory.lookup_below h4 (by omega), Memory.lookup_below h4' (by omega)]
      · have e := h a
        rwa [Memory.lookup, if_neg ha, Memory.lookup, if_neg ha] at e

/-! ### One byte -/

theorem memWrite_wf {m : Memory} (h : Memory.wf m = true) (a : Word) (v : Byte) : Memory.wf (memWrite m a v) = true :=
  Memory.wfFrom_insert (Nat.zero_le _) a.isLt h

theorem memRead_memWrite_same {m : Memory} (h : Memory.wf m = true) (a : Word) (v : Byte) :
    memRead (memWrite m a v) a = v :=
  Memory.lookup_insert_same _ _ h

theorem memRead_memWrite_other (m : Memory) {a b : Word} (v : Byte) (hb : b ≠ a) :
    memRead (memWrite m a v) b = memRead m b :=
  Memory.lookup_insert_other _ _ _ fun h => hb (BitVec.eq_of_toNat_eq h)

theorem memRead_memWrite {m : Memory} (h : Memory.wf m = true) (a b : Word) (v : Byte) :
    memRead (memWrite m a v) b = if b = a then v else memRead m b := by
  by_cases hb : b = a
  · subst hb; rw [if_pos rfl, memRead_memWrite_same h]
  · rw [if_neg hb, memRead_memWrite_other _ _ hb]

/-- Two canonical memories that read alike everywhere are the same list. -/
theorem memory_ext {m m' : Memory} (h : Memory.wf m = true) (h' : Memory.wf m' = true)
    (e : ∀ a, memRead m a = memRead m' a) : m = m' := by
  refine Memory.ext_of_lookup h h' fun a => ?_
  by_cases ha : a < 2 ^ 32
  · have e2 : (BitVec.ofNat 32 a).toNat = a := by
      rw [BitVec.toNat_ofNat]; exact Nat.mod_eq_of_lt ha
    have := e (BitVec.ofNat 32 a)
    rwa [memRead, memRead, e2] at this
  · have top : ∀ {m : Memory} {lo : Nat}, Memory.wfFrom lo m = true → Memory.lookup m a = unlistedByte := by
      intro m
      induction m with
      | nil => intros; rfl
      | cons c m ih =>
        obtain ⟨k, v⟩ := c
        intro lo hm
        obtain ⟨_, h2, _, h4⟩ := Memory.wfFrom_cons.1 hm
        rw [Memory.lookup, if_neg (by omega)]
        exact ih h4
    rw [top h, top h']

/-- Writing the byte that is already there changes nothing. -/
theorem memWrite_self {m : Memory} (h : Memory.wf m = true) (a : Word) : memWrite m a (memRead m a) = m := by
  refine memory_ext (memWrite_wf h _ _) h fun b => ?_
  rw [memRead_memWrite h]
  split
  · next hb => rw [hb]
  · rfl

/-! ### Effective addresses -/

theorem ea_toNat (base : Word) (off : Nat) : (ea base off).toNat = (base.toNat + off) % 2 ^ 32 := by
  simp [ea, BitVec.toNat_add, BitVec.toNat_ofNat]

theorem ea_ea (base : Word) (i j : Nat) : ea (ea base i) j = ea base (i + j) := by
  apply BitVec.eq_of_toNat_eq
  rw [ea_toNat, ea_toNat, ea_toNat]; omega

theorem ea_inj {base : Word} {i j : Nat} (hi : i < 2 ^ 32) (hj : j < 2 ^ 32) (h : ea base i = ea base j) : i = j := by
  have := congrArg BitVec.toNat h
  rw [ea_toNat, ea_toNat] at this
  have := base.isLt
  omega

/-! ### Three bytes -/

theorem wr888_wf {m : Memory} (h : Memory.wf m = true) (a : Word) (c : Rgb) : Memory.wf (wr888 m a c) = true :=
  memWrite_wf (memWrite_wf (memWrite_wf h _ _) _ _) _ _

theorem ea_zero (a : Word) : ea a 0 = a := by
  apply BitVec.eq_of_toNat_eq
  rw [ea_toNat]
  have := a.isLt
  omega

theorem ea_small_ne {a : Word} {i j : Nat} (hi : i < 2 ^ 32) (hj : j < 2 ^ 32) (h : i ≠ j) : ea a i ≠ ea a j :=
  fun e => h (ea_inj hi hj e)

/-- What every address reads after three bytes are written. -/
theorem memRead_wr888 {m : Memory} (h : Memory.wf m = true) (a b : Word) (c : Rgb) :
    memRead (wr888 m a c) b =
      if b = ea a 2 then c.b else if b = ea a 1 then c.g else if b = a then c.r else memRead m b := by
  unfold wr888
  rw [memRead_memWrite (memWrite_wf (memWrite_wf h _ _) _ _), memRead_memWrite (memWrite_wf h _ _), memRead_memWrite h]

theorem rd888_wr888 {m : Memory} (h : Memory.wf m = true) (a : Word) (c : Rgb) : rd888 (wr888 m a c) a = c := by
  have h01 : a ≠ ea a 1 := by
    conv_lhs => rw [← ea_zero a]
    exact ea_small_ne (by omega) (by omega) (by omega)
  have h02 : a ≠ ea a 2 := by
    conv_lhs => rw [← ea_zero a]
    exact ea_small_ne (by omega) (by omega) (by omega)
  have h12 : ea a 1 ≠ ea a 2 := ea_small_ne (by omega) (by omega) (by omega)
  simp [rd888, memRead_wr888 h, h01, h02, h12]

/-- Writing back the triple that was read changes nothing. -/
theorem wr888_rd888 {m : Memory} (h : Memory.wf m = true) (a : Word) : wr888 m a (rd888 m a) = m := by
  refine memory_ext (wr888_wf h _ _) h fun b => ?_
  rw [memRead_wr888 h]
  split
  · next e => rw [e]; rfl
  · split
    · next e => rw [e]; rfl
    · split
      · next e => rw [e]; rfl
      · rfl

theorem memRead_wr888_other (m : Memory) {a b : Word} (c : Rgb) (h0 : b ≠ a) (h1 : b ≠ ea a 1) (h2 : b ≠ ea a 2) :
    memRead (wr888 m a c) b = memRead m b := by
  unfold wr888
  rw [memRead_memWrite_other _ _ h2, memRead_memWrite_other _ _ h1, memRead_memWrite_other _ _ h0]

end Sys2Proof.Machine
end

