-- ==== Sys2Proof/Laws/PixelBuffer.lean ====
section
/-! SUPPORT. The laws of pixel access and of painting a rectangle. -/

namespace Sys2Proof

/-- The constraints of an admitted configuration, as facts. -/
theorem Config.admitted_iff (cfg : Config) : cfg.admitted = true ↔
    1 ≤ cfg.W ∧ 8 ≤ cfg.H ∧ cfg.H % 8 = 0 ∧ 1 ≤ cfg.ZW ∧ cfg.W % cfg.ZW = 0 ∧ 1 ≤ cfg.ZH ∧ cfg.H % cfg.ZH = 0 ∧
      3 * cfg.W * cfg.H ≤ 2 ^ 32 := by
  simp [Config.admitted, and_assoc]

theorem Config.nb_eq {cfg : Config} (h : cfg.H % 8 = 0) : cfg.nb = cfg.W * (cfg.H / 8) := by
  have h8 : cfg.H = 8 * (cfg.H / 8) := by omega
  unfold Config.nb
  conv_lhs => rw [h8, Nat.mul_left_comm]
  exact Nat.mul_div_cancel_left _ (by omega)

namespace Machine

/-! ### Bits of a byte -/

theorem getLsbD_putBit (b : Byte) {k j : Nat} (v : Bool) (hj : j < 8) :
    (putBit b k v).getLsbD j = if j = k then v else b.getLsbD j := by
  unfold putBit
  cases v <;> simp [hj] <;> by_cases h : j = k <;> simp [h] <;> omega

/-! ### Where a pixel lies -/

theorem pixelIdx_lt {cfg : Config} (h8 : cfg.H % 8 = 0) {x y : Nat} (hx : x < cfg.W) (hy : y < cfg.H) :
    pixelIdx cfg x y < cfg.nb := by
  rw [Config.nb_eq h8, pixelIdx]
  have hp : y / 8 + 1 ≤ cfg.H / 8 := by omega
  calc x + y / 8 * cfg.W < cfg.W + y / 8 * cfg.W := by omega
    _ = cfg.W * (y / 8 + 1) := by ring
    _ ≤ cfg.W * (cfg.H / 8) := Nat.mul_le_mul_left _ hp

theorem pixel_place_inj {cfg : Config} {x y x' y' : Nat} (hx : x < cfg.W) (hx' : x' < cfg.W)
    (hi : pixelIdx cfg x y = pixelIdx cfg x' y') (hp : pixelPos y = pixelPos y') : x = x' ∧ y = y' := by
  unfold pixelIdx at hi
  unfold pixelPos at hp
  have hxx : x = x' := by
    have := congrArg (· % cfg.W) hi
    simpa [Nat.add_mul_mod_self_right, Nat.mod_eq_of_lt hx, Nat.mod_eq_of_lt hx'] using this
  subst hxx
  have hq : y / 8 = y' / 8 := Nat.eq_of_mul_eq_mul_right (by omega : 0 < cfg.W) (by omega)
  exact ⟨rfl, by omega⟩

/-! ### One pixel -/

@[simp] theorem length_setPixel (cfg : Config) (buf : PixelBuffer) (x y : Nat) (v : Bool) :
    (setPixel cfg buf x y v).length = buf.length := by
  simp [setPixel]

theorem pixel_setPixel_same {cfg : Config} {buf : PixelBuffer} {x y : Nat} (v : Bool)
    (h : pixelIdx cfg x y < buf.length) : pixel cfg (setPixel cfg buf x y v) x y = v := by
  have hp : pixelPos y < 8 := Nat.mod_lt _ (by omega)
  simp [pixel, setPixel, List.getD_eq_getElem?_getD, h, getLsbD_putBit _ _ hp]

theorem pixel_setPixel_other {cfg : Config} (buf : PixelBuffer) {x y x' y' : Nat} (v : Bool)
    (hx : x < cfg.W) (hx' : x' < cfg.W) (hne : ¬(x' = x ∧ y' = y)) :
    pixel cfg (setPixel cfg buf x y v) x' y' = pixel cfg buf x' y' := by
  have hp : pixelPos y' < 8 := Nat.mod_lt _ (by omega)
  unfold pixel setPixel
  by_cases hi : pixelIdx cfg x y = pixelIdx cfg x' y'
  · have hpos : pixelPos y' ≠ pixelPos y := fun e => hne (by
      obtain ⟨a, b⟩ := pixel_place_inj hx hx' hi e.symm
      exact ⟨a.symm, b.symm⟩)
    by_cases hl : pixelIdx cfg x y < buf.length
    · rw [← hi]
      simp [List.getD_eq_getElem?_getD, hl, getLsbD_putBit _ _ hp, hpos]
    · rw [List.set_eq_of_length_le (by omega)]
  · simp [List.getD_eq_getElem?_getD, List.getElem?_set_ne hi]

/-! ### Rectangles -/

theorem mem_raster {w h : Nat} {p : Nat × Nat} : p ∈ raster w h ↔ p.1 < w ∧ p.2 < h := by
  obtain ⟨x, y⟩ := p
  simp only [raster, List.mem_flatMap, List.mem_range, List.mem_map, Prod.mk.injEq]
  constructor
  · rintro ⟨y', hy, x', hx, rfl, rfl⟩; exact ⟨hx, hy⟩
  · rintro ⟨hx, hy⟩; exact ⟨y, hy, x, hx, rfl, rfl⟩

theorem length_raster (w h : Nat) : (raster w h).length = w * h := by
  simp [raster, List.length_flatMap, Nat.mul_comm]

theorem nodup_raster (w h : Nat) : (raster w h).Nodup := by
  rw [raster, List.nodup_flatMap]
  refine ⟨fun y _ => List.Nodup.map (fun a b e => by simpa using e) List.nodup_range, ?_⟩
  refine List.Pairwise.imp_of_mem ?_ (List.nodup_range (n := h))
  intro y y' _ _ hne
  simp only [Function.onFun, List.disjoint_left, List.mem_map, List.mem_range]
  rintro p ⟨x, _, rfl⟩ ⟨x', _, e⟩
  exact hne (by simpa using (congrArg Prod.snd e).symm)

/-- The body of `paint`'s loop. -/
theorem paint_eq (cfg : Config) (x0 y0 w h : Nat) (f : Nat → Nat → Option Bool) (buf : PixelBuffer) :
    paint cfg x0 y0 w h f buf = (raster w h).foldl
      (fun acc p => match f p.1 p.2 with
        | some v => setPixel cfg acc (x0 + p.1) (y0 + p.2) v
        | none => acc) buf := rfl

@[simp] theorem length_paint (cfg : Config) (x0 y0 w h : Nat) (f : Nat → Nat → Option Bool) (buf : PixelBuffer) :
    (paint cfg x0 y0 w h f buf).length = buf.length := by
  rw [paint_eq]
  generalize raster w h = ps
  induction ps generalizing buf with
  | nil => rfl
  | cons p ps ih =>
    rw [List.foldl_cons, ih]
    split <;> simp

/-- Painting over any list of distinct places inside a buffer: each place takes its colour once, the rest stays. -/
theorem pixel_paint_list {cfg : Config} (h8 : cfg.H % 8 = 0) (x0 y0 : Nat) (f : Nat → Nat → Option Bool)
    (ps : List (Nat × Nat)) (hn : ps.Nodup) (hin : ∀ p ∈ ps, x0 + p.1 < cfg.W ∧ y0 + p.2 < cfg.H)
    (buf : PixelBuffer) (hl : buf.length = cfg.nb) {x y : Nat} (hx : x < cfg.W) :
    pixel cfg (ps.foldl (fun acc p => match f p.1 p.2 with
        | some v => setPixel cfg acc (x0 + p.1) (y0 + p.2) v
        | none => acc) buf) x y =
      if x0 ≤ x ∧ y0 ≤ y ∧ (x - x0, y - y0) ∈ ps then (f (x - x0) (y - y0)).getD (pixel cfg buf x y)
      else pixel cfg buf x y := by
  induction ps generalizing buf with
  | nil => simp
  | cons p ps ih =>
    obtain ⟨px, py⟩ := p
    have hn' := List.nodup_cons.1 hn
    have hp := hin (px, py) (by simp)
    have hrest : ∀ q ∈ ps, x0 + q.1 < cfg.W ∧ y0 + q.2 < cfg.H := fun q hq => hin q (by simp [hq])
    rw [List.foldl_cons]
    have hlen : (match f px py with
        | some v => setPixel cfg buf (x0 + px) (y0 + py) v
        | none => buf).length = cfg.nb := by split <;> simp [hl]
    rw [ih hn'.2 hrest _ hlen]
    by_cases hhere : x0 ≤ x ∧ y0 ≤ y ∧ (x - x0, y - y0) = (px, py)
    · obtain ⟨h1, h2, h3⟩ := hhere
      obtain ⟨e1, e2⟩ := Prod.mk.injEq .. ▸ h3
      have hnot : (x - x0, y - y0) ∉ ps := h3 ▸ hn'.1
      have hx' : x = x0 + px := by omega
      have hy' : y = y0 + py := by omega
      rw [if_neg (fun h => hnot h.2.2), if_pos ⟨h1, h2, by rw [h3]; simp⟩, e1, e2]
      subst hx' hy'
      cases hf : f px py with
      | none => simp
      | some v => simp [pixel_setPixel_same v (hl ▸ pixelIdx_lt h8 hp.1 hp.2)]
    · have hsame : pixel cfg (match f px py with
          | some v => setPixel cfg buf (x0 + px) (y0 + py) v
          | none => buf) x y = pixel cfg buf x y := by
        split
        · refine pixel_setPixel_other _ _ hp.1 hx fun e => hhere ⟨by omega, by omega, ?_⟩
          rw [e.1, e.2]; simp
        · rfl
      rw [hsame]
      refine if_congr ?_ rfl rfl
      constructor
      · rintro ⟨h1, h2, h3⟩; exact ⟨h1, h2, List.mem_cons_of_mem _ h3⟩
      · rintro ⟨h1, h2, h3⟩
        rcases List.mem_cons.1 h3 with h | h
        · exact absurd ⟨h1, h2, h⟩ hhere
        · exact ⟨h1, h2, h⟩

/-- What `paint` does to each pixel of a buffer it stays inside. -/
theorem pixel_paint {cfg : Config} (h8 : cfg.H % 8 = 0) {x0 y0 w h : Nat} (f : Nat → Nat → Option Bool)
    (buf : PixelBuffer) (hl : buf.length = cfg.nb) (hw : x0 + w ≤ cfg.W) (hh : y0 + h ≤ cfg.H) {x y : Nat} (hx : x < cfg.W) :
    pixel cfg (paint cfg x0 y0 w h f buf) x y =
      if x0 ≤ x ∧ x < x0 + w ∧ y0 ≤ y ∧ y < y0 + h then (f (x - x0) (y - y0)).getD (pixel cfg buf x y)
      else pixel cfg buf x y := by
  rw [paint_eq, pixel_paint_list h8 x0 y0 f _ (nodup_raster w h) ?_ buf hl hx]
  · refine if_congr ?_ rfl rfl
    rw [mem_raster]
    constructor
    · rintro ⟨h1, h2, h3, h4⟩; dsimp only at h3 h4; omega
    · rintro ⟨h1, h2, h3, h4⟩; dsimp only; omega
  · intro p hp
    obtain ⟨h1, h2⟩ := mem_raster.1 hp
    omega

/-- Two buffers of NB bytes that agree on every pixel are equal: every bit of every byte is a pixel (10_state.md R26). -/
theorem buffer_ext {cfg : Config} (h8 : cfg.H % 8 = 0) (hW : 1 ≤ cfg.W) {a b : PixelBuffer} (ha : a.length = cfg.nb)
    (hb : b.length = cfg.nb) (h : ∀ x y, x < cfg.W → y < cfg.H → pixel cfg a x y = pixel cfg b x y) : a = b := by
  refine List.ext_getElem (ha.trans hb.symm) fun i h1 h2 => ?_
  refine BitVec.eq_of_getLsbD_eq fun j hj => ?_
  have hi : i < cfg.W * (cfg.H / 8) := by rw [← Config.nb_eq h8, ← ha]; exact h1
  have hx : i % cfg.W < cfg.W := Nat.mod_lt _ hW
  have hq : i / cfg.W < cfg.H / 8 := Nat.div_lt_of_lt_mul hi
  have e := h (i % cfg.W) (8 * (i / cfg.W) + j) hx (by omega)
  have hidx : pixelIdx cfg (i % cfg.W) (8 * (i / cfg.W) + j) = i := by
    have : (8 * (i / cfg.W) + j) / 8 = i / cfg.W := by omega
    rw [pixelIdx, this, Nat.mul_comm]
    exact Nat.mod_add_div i cfg.W
  have hpos : pixelPos (8 * (i / cfg.W) + j) = j := by unfold pixelPos; omega
  simpa [pixel, hidx, hpos, List.getD_eq_getElem?_getD, h1, h2] using e

/-! ### Zones (43_zone_compositor.md R140) -/

theorem zone_in_panel {cfg : Config} (h : cfg.admitted = true) {idx : Nat} (hi : idx < cfg.nz) :
    xOff cfg idx + cfg.ZW ≤ cfg.W ∧ yOff cfg idx + cfg.ZH ≤ cfg.H := by
  obtain ⟨hW, hH, _, hZW, hdW, hZH, hdH, _⟩ := (Config.admitted_iff cfg).1 h
  have eW : cfg.zpr * cfg.ZW = cfg.W := Nat.div_mul_cancel (Nat.dvd_of_mod_eq_zero hdW)
  have eH : cfg.zrows * cfg.ZH = cfg.H := Nat.div_mul_cancel (Nat.dvd_of_mod_eq_zero hdH)
  have hz : 0 < cfg.zpr := by
    rcases Nat.eq_zero_or_pos cfg.zpr with h0 | h0
    · rw [h0] at eW; omega
    · exact h0
  have h1 : idx % cfg.zpr + 1 ≤ cfg.zpr := Nat.mod_lt _ hz
  have h2 : idx / cfg.zpr + 1 ≤ cfg.zrows := Nat.div_lt_of_lt_mul hi
  constructor
  · calc xOff cfg idx + cfg.ZW = (idx % cfg.zpr + 1) * cfg.ZW := by unfold xOff; ring
      _ ≤ cfg.zpr * cfg.ZW := Nat.mul_le_mul_right _ h1
      _ = cfg.W := eW
  · calc yOff cfg idx + cfg.ZH = (idx / cfg.zpr + 1) * cfg.ZH := by unfold yOff; ring
      _ ≤ cfg.zrows * cfg.ZH := Nat.mul_le_mul_right _ h2
      _ = cfg.H := eH

end Machine

end Sys2Proof
end

