-- ==== Sys2Proof/Laws/Dither.lean ====
section
/-! SUPPORT. What the ditherer's loop keeps: canonical memory, buffer length, every byte outside the scratch buffer. -/

namespace Sys2Proof.Machine

/-! ### The channel update -/

theorem clamp255_toNat (v : Int) : ((clamp255 v).toNat : Int) = max 0 (min 255 v) := by
  unfold clamp255
  split
  · simp; omega
  · split
    · simp; omega
    · rw [BitVec.toNat_ofNat, Nat.mod_eq_of_lt (by omega)]; omega

theorem addClamped_zero (c : Byte) : addClamped c 0 = c := by
  have := c.isLt
  apply BitVec.eq_of_toNat_eq
  have h := clamp255_toNat ((c.toNat : Int) + 0)
  unfold addClamped
  omega

theorem addShare_zero (c : Rgb) : addShare c 0 = c := by
  cases c; simp [addShare, addClamped_zero]

theorem share_zero_err (rule : ShareRule) (w : Int) : share rule 0 w = 0 := by
  cases rule <;> simp [share]

/-! ### One pixel -/

theorem ditherErr_bounds (c : Rgb) : -126 ≤ ditherErr c ∧ ditherErr c ≤ 128 := by
  have := toGray888_le c
  unfold ditherErr ditherLit
  by_cases h : 128 < toGray888 c
  · rw [if_pos (by simpa using h)]; omega
  · rw [if_neg (by simpa using h)]; omega

theorem diffuse_wf {cfg : Config} {base : Word} {x y : Nat} {err : Int} {m : Memory} (h : Memory.wf m = true)
    (k : Int × Int × Int) : Memory.wf (diffuse cfg base x y err m k) = true := by
  unfold diffuse
  dsimp only
  split
  · exact wr888_wf h _ _
  · exact h

theorem diffuse_foldl_wf {cfg : Config} {base : Word} {x y : Nat} {err : Int} (ks : List (Int × Int × Int)) :
    ∀ {m : Memory}, Memory.wf m = true → Memory.wf (ks.foldl (diffuse cfg base x y err) m) = true := by
  induction ks with
  | nil => exact fun h => h
  | cons k ks ih => exact fun h => ih (diffuse_wf h k)

theorem ditherPixel_wf {cfg : Config} {base : Word} {mw : Memory × PixelBuffer} (h : Memory.wf mw.1 = true)
    (p : Nat × Nat) : Memory.wf (ditherPixel cfg base mw p).1 = true :=
  diffuse_foldl_wf kernel h

@[simp] theorem length_ditherPixel (cfg : Config) (base : Word) (mw : Memory × PixelBuffer) (p : Nat × Nat) :
    (ditherPixel cfg base mw p).2.length = mw.2.length := by
  simp [ditherPixel]

/-! ### The pass -/

theorem ditherPanel_eq (cfg : Config) (base : Word) (m : Memory) (wb : PixelBuffer) :
    ditherPanel cfg base m wb = (raster cfg.W cfg.H).foldl (ditherPixel cfg base) (m, wb) := rfl

theorem ditherList_wf {cfg : Config} {base : Word} (ps : List (Nat × Nat)) : ∀ {mw : Memory × PixelBuffer},
    Memory.wf mw.1 = true → Memory.wf (ps.foldl (ditherPixel cfg base) mw).1 = true := by
  induction ps with
  | nil => exact fun h => h
  | cons p ps ih => exact fun h => ih (ditherPixel_wf h p)

theorem length_ditherList (cfg : Config) (base : Word) (ps : List (Nat × Nat)) : ∀ (mw : Memory × PixelBuffer),
    (ps.foldl (ditherPixel cfg base) mw).2.length = mw.2.length := by
  induction ps with
  | nil => exact fun _ => rfl
  | cons p ps ih => intro mw; rw [List.foldl_cons, ih, length_ditherPixel]

theorem ditherPanel_wf {m : Memory} (h : Memory.wf m = true) (cfg : Config) (base : Word) (wb : PixelBuffer) :
    Memory.wf (ditherPanel cfg base m wb).1 = true :=
  ditherList_wf (mw := (m, wb)) _ h

@[simp] theorem length_ditherPanel (cfg : Config) (base : Word) (m : Memory) (wb : PixelBuffer) :
    (ditherPanel cfg base m wb).2.length = wb.length :=
  length_ditherList cfg base _ (m, wb)

/-! ### Bytes of the scratch buffer -/

/-- A panel pixel's offset leaves room for its three bytes. -/
theorem panel_offset_lt {cfg : Config} {x y : Nat} (hx : x < cfg.W) (hy : y < cfg.H) :
    y * cfg.W + x < cfg.W * cfg.H := by
  calc y * cfg.W + x < y * cfg.W + cfg.W := by omega
    _ = cfg.W * (y + 1) := by ring
    _ ≤ cfg.W * cfg.H := Nat.mul_le_mul_left _ hy

/-- A neighbour's write reaches no address but its own three bytes. -/
theorem memRead_diffuse_other {cfg : Config} {base : Word} {x y : Nat} {err : Int} {m : Memory} {k : Int × Int × Int}
    {b : Word} (h : ∀ nx ny : Nat, (nx : Int) = x + k.1 → (ny : Int) = y + k.2.1 → nx < cfg.W → ny < cfg.H →
      ∀ i, i < 3 → b ≠ ea base (3 * (ny * cfg.W + nx) + i)) :
    memRead (diffuse cfg base x y err m k) b = memRead m b := by
  unfold diffuse
  dsimp only
  split
  · next hc =>
    obtain ⟨h1, h2, h3, h4⟩ := hc
    have key := h ((x : Int) + k.1).toNat ((y : Int) + k.2.1).toNat (by omega) (by omega) (by omega) (by omega)
    refine memRead_wr888_other _ _ ?_ ?_ ?_
    · simpa [panelEa] using key 0 (by omega)
    · rw [panelEa, ea_ea]; exact key 1 (by omega)
    · rw [panelEa, ea_ea]; exact key 2 (by omega)
  · rfl

/-- Every address that is no byte of a pixel after the first keeps its byte through a whole pass (20_memory.md R59). -/
theorem memRead_ditherPixel_other {cfg : Config} {base : Word} {mw : Memory × PixelBuffer} {p : Nat × Nat} {b : Word}
    (h : ∀ off, 3 ≤ off → off < 3 * (cfg.W * cfg.H) → b ≠ ea base off) :
    memRead (ditherPixel cfg base mw p).1 b = memRead mw.1 b := by
  have step : ∀ (m : Memory) (err : Int), ∀ k ∈ kernel,
      memRead (diffuse cfg base p.1 p.2 err m k) b = memRead m b := by
    intro m err k hk
    refine memRead_diffuse_other fun nx ny hnx hny hx hy i hi => h _ ?_ ?_
    · have : 1 ≤ ny * cfg.W + nx := by
        simp only [kernel, List.mem_cons, List.not_mem_nil, or_false] at hk
        rcases hk with rfl | rfl | rfl | rfl
        · dsimp only at hnx hny; omega
        all_goals
          dsimp only at hnx hny
          have : 1 ≤ ny := by omega
          have := Nat.mul_le_mul this (show 1 ≤ cfg.W by omega)
          omega
      omega
    · have := panel_offset_lt hx hy
      omega
  unfold ditherPixel
  dsimp only
  simp only [kernel, List.foldl_cons, List.foldl_nil]
  rw [step _ _ _ (by simp [kernel]), step _ _ _ (by simp [kernel]), step _ _ _ (by simp [kernel]),
    step _ _ _ (by simp [kernel])]

theorem memRead_ditherPanel_other {cfg : Config} {base : Word} {m : Memory} {wb : PixelBuffer} {b : Word}
    (h : ∀ off, 3 ≤ off → off < 3 * (cfg.W * cfg.H) → b ≠ ea base off) :
    memRead (ditherPanel cfg base m wb).1 b = memRead m b := by
  rw [ditherPanel_eq]
  suffices ∀ (ps : List (Nat × Nat)) (mw : Memory × PixelBuffer),
      memRead (ps.foldl (ditherPixel cfg base) mw).1 b = memRead mw.1 b from this _ (m, wb)
  intro ps
  induction ps with
  | nil => exact fun _ => rfl
  | cons p ps ih => intro mw; rw [List.foldl_cons, ih, memRead_ditherPixel_other h]

end Sys2Proof.Machine
end

