-- ==== Sys2Proof/Laws/State.lean ====
section
/-! SUPPORT. The fields of a state after each shared operation, one lemma a field, so that no later proof unfolds a record update. -/

namespace Sys2Proof.Machine

/-! ### respond -/

@[simp] theorem respond_cfg (st : Status) (d : Byte) (s : State) : (respond st d s).cfg = s.cfg := rfl
@[simp] theorem respond_mode (st : Status) (d : Byte) (s : State) : (respond st d s).mode = s.mode := rfl
@[simp] theorem respond_last (st : Status) (d : Byte) (s : State) : (respond st d s).last = s.last := rfl
@[simp] theorem respond_wb (st : Status) (d : Byte) (s : State) : (respond st d s).wb = s.wb := rfl
@[simp] theorem respond_ab (st : Status) (d : Byte) (s : State) : (respond st d s).ab = s.ab := rfl
@[simp] theorem respond_mem (st : Status) (d : Byte) (s : State) : (respond st d s).mem = s.mem := rfl
@[simp] theorem respond_now (st : Status) (d : Byte) (s : State) : (respond st d s).now = s.now := rfl
@[simp] theorem respond_port (st : Status) (d : Byte) (s : State) : (respond st d s).port = s.port := rfl
@[simp] theorem respond_events (st : Status) (d : Byte) (s : State) : (respond st d s).events = s.events := rfl
@[simp] theorem respond_responses (st : Status) (d : Byte) (s : State) : (respond st d s).responses = s.responses ++ [{ status := st, data := d }] := rfl

/-! ### raise -/

@[simp] theorem raise_cfg (st : Status) (s : State) : (raise st s).cfg = s.cfg := rfl
@[simp] theorem raise_mode (st : Status) (s : State) : (raise st s).mode = s.mode := rfl
@[simp] theorem raise_last (st : Status) (s : State) : (raise st s).last = s.last := rfl
@[simp] theorem raise_wb (st : Status) (s : State) : (raise st s).wb = s.wb := rfl
@[simp] theorem raise_ab (st : Status) (s : State) : (raise st s).ab = s.ab := rfl
@[simp] theorem raise_mem (st : Status) (s : State) : (raise st s).mem = s.mem := rfl
@[simp] theorem raise_now (st : Status) (s : State) : (raise st s).now = s.now := rfl
@[simp] theorem raise_port (st : Status) (s : State) : (raise st s).port = s.port := rfl
@[simp] theorem raise_events (st : Status) (s : State) : (raise st s).events = s.events := rfl
@[simp] theorem raise_responses (st : Status) (s : State) : (raise st s).responses = s.responses ++ [{ status := st, data := 0 }] := rfl

/-! ### emit -/

@[simp] theorem emit_cfg (es : List Event) (s : State) : (emit es s).cfg = s.cfg := rfl
@[simp] theorem emit_mode (es : List Event) (s : State) : (emit es s).mode = s.mode := rfl
@[simp] theorem emit_last (es : List Event) (s : State) : (emit es s).last = s.last := rfl
@[simp] theorem emit_wb (es : List Event) (s : State) : (emit es s).wb = s.wb := rfl
@[simp] theorem emit_ab (es : List Event) (s : State) : (emit es s).ab = s.ab := rfl
@[simp] theorem emit_mem (es : List Event) (s : State) : (emit es s).mem = s.mem := rfl
@[simp] theorem emit_now (es : List Event) (s : State) : (emit es s).now = s.now := rfl
@[simp] theorem emit_port (es : List Event) (s : State) : (emit es s).port = s.port := rfl
@[simp] theorem emit_events (es : List Event) (s : State) : (emit es s).events = s.events ++ es := rfl
@[simp] theorem emit_responses (es : List Event) (s : State) : (emit es s).responses = s.responses := rfl

/-! ### swapAction -/

@[simp] theorem swapAction_cfg (s : State) : (swapAction s).cfg = s.cfg := rfl
@[simp] theorem swapAction_mode (s : State) : (swapAction s).mode = s.mode := rfl
@[simp] theorem swapAction_last (s : State) : (swapAction s).last = s.last := rfl
@[simp] theorem swapAction_wb (s : State) : (swapAction s).wb = s.wb := rfl
@[simp] theorem swapAction_ab (s : State) : (swapAction s).ab = s.wb := rfl
@[simp] theorem swapAction_mem (s : State) : (swapAction s).mem = s.mem := rfl
@[simp] theorem swapAction_now (s : State) : (swapAction s).now = s.now := rfl
@[simp] theorem swapAction_port (s : State) : (swapAction s).port = s.port := rfl
@[simp] theorem swapAction_events (s : State) : (swapAction s).events = s.events ++ [.tClearFb, .tBlit 0 0 s.wb s.cfg.W s.cfg.H 1, .tPresent] := rfl
@[simp] theorem swapAction_responses (s : State) : (swapAction s).responses = s.responses := rfl

/-! ### copyAction -/

@[simp] theorem copyAction_cfg (s : State) : (copyAction s).cfg = s.cfg := rfl
@[simp] theorem copyAction_mode (s : State) : (copyAction s).mode = s.mode := rfl
@[simp] theorem copyAction_last (s : State) : (copyAction s).last = s.last := rfl
@[simp] theorem copyAction_wb (s : State) : (copyAction s).wb = s.ab := rfl
@[simp] theorem copyAction_ab (s : State) : (copyAction s).ab = s.ab := rfl
@[simp] theorem copyAction_mem (s : State) : (copyAction s).mem = s.mem := rfl
@[simp] theorem copyAction_now (s : State) : (copyAction s).now = s.now := rfl
@[simp] theorem copyAction_port (s : State) : (copyAction s).port = s.port := rfl
@[simp] theorem copyAction_events (s : State) : (copyAction s).events = s.events := rfl
@[simp] theorem copyAction_responses (s : State) : (copyAction s).responses = s.responses := rfl

/-! ### acceptCommand -/

@[simp] theorem acceptCommand_cfg (now : Word) (rest : List HostMove) (s : State) : (acceptCommand now rest s).cfg = s.cfg := rfl
@[simp] theorem acceptCommand_mode (now : Word) (rest : List HostMove) (s : State) : (acceptCommand now rest s).mode = s.mode := rfl
@[simp] theorem acceptCommand_last (now : Word) (rest : List HostMove) (s : State) : (acceptCommand now rest s).last = s.last := rfl
@[simp] theorem acceptCommand_wb (now : Word) (rest : List HostMove) (s : State) : (acceptCommand now rest s).wb = s.wb := rfl
@[simp] theorem acceptCommand_ab (now : Word) (rest : List HostMove) (s : State) : (acceptCommand now rest s).ab = s.ab := rfl
@[simp] theorem acceptCommand_mem (now : Word) (rest : List HostMove) (s : State) : (acceptCommand now rest s).mem = s.mem := rfl
@[simp] theorem acceptCommand_now (now : Word) (rest : List HostMove) (s : State) : (acceptCommand now rest s).now = now := rfl
@[simp] theorem acceptCommand_port (now : Word) (rest : List HostMove) (s : State) : (acceptCommand now rest s).port = rest := rfl
@[simp] theorem acceptCommand_events (now : Word) (rest : List HostMove) (s : State) : (acceptCommand now rest s).events = s.events := rfl
@[simp] theorem acceptCommand_responses (now : Word) (rest : List HostMove) (s : State) : (acceptCommand now rest s).responses = s.responses := rfl

/-! ### hostStore -/

@[simp] theorem hostStore_cfg (a : Word) (v : Byte) (rest : List HostMove) (s : State) : (hostStore a v rest s).cfg = s.cfg := rfl
@[simp] theorem hostStore_mode (a : Word) (v : Byte) (rest : List HostMove) (s : State) : (hostStore a v rest s).mode = s.mode := rfl
@[simp] theorem hostStore_last (a : Word) (v : Byte) (rest : List HostMove) (s : State) : (hostStore a v rest s).last = s.last := rfl
@[simp] theorem hostStore_wb (a : Word) (v : Byte) (rest : List HostMove) (s : State) : (hostStore a v rest s).wb = s.wb := rfl
@[simp] theorem hostStore_ab (a : Word) (v : Byte) (rest : List HostMove) (s : State) : (hostStore a v rest s).ab = s.ab := rfl
@[simp] theorem hostStore_mem (a : Word) (v : Byte) (rest : List HostMove) (s : State) : (hostStore a v rest s).mem = memWrite s.mem a v := rfl
@[simp] theorem hostStore_now (a : Word) (v : Byte) (rest : List HostMove) (s : State) : (hostStore a v rest s).now = s.now := rfl
@[simp] theorem hostStore_port (a : Word) (v : Byte) (rest : List HostMove) (s : State) : (hostStore a v rest s).port = rest := rfl
@[simp] theorem hostStore_events (a : Word) (v : Byte) (rest : List HostMove) (s : State) : (hostStore a v rest s).events = s.events := rfl
@[simp] theorem hostStore_responses (a : Word) (v : Byte) (rest : List HostMove) (s : State) : (hostStore a v rest s).responses = s.responses := rfl

/-! ### reset -/

@[simp] theorem resetWith_cfg (cfg : Config) (ok : Bool) (mem : Memory) (now : Word) :
    (State.resetWith cfg ok mem now).cfg = cfg := rfl
@[simp] theorem resetWith_mode (cfg : Config) (ok : Bool) (mem : Memory) (now : Word) :
    (State.resetWith cfg ok mem now).mode = if ok then .ready else .halted := rfl
@[simp] theorem resetWith_last (cfg : Config) (ok : Bool) (mem : Memory) (now : Word) :
    (State.resetWith cfg ok mem now).last = 0 := rfl
@[simp] theorem resetWith_wb (cfg : Config) (ok : Bool) (mem : Memory) (now : Word) :
    (State.resetWith cfg ok mem now).wb = List.replicate cfg.nb 0 := rfl
@[simp] theorem resetWith_ab (cfg : Config) (ok : Bool) (mem : Memory) (now : Word) :
    (State.resetWith cfg ok mem now).ab = List.replicate cfg.nb 0 := rfl
@[simp] theorem resetWith_mem (cfg : Config) (ok : Bool) (mem : Memory) (now : Word) :
    (State.resetWith cfg ok mem now).mem = mem := rfl
@[simp] theorem resetWith_now (cfg : Config) (ok : Bool) (mem : Memory) (now : Word) :
    (State.resetWith cfg ok mem now).now = now := rfl
@[simp] theorem resetWith_port (cfg : Config) (ok : Bool) (mem : Memory) (now : Word) :
    (State.resetWith cfg ok mem now).port = [] := rfl
@[simp] theorem resetWith_events (cfg : Config) (ok : Bool) (mem : Memory) (now : Word) :
    (State.resetWith cfg ok mem now).events = [.tInit cfg.dispAddr] := rfl
@[simp] theorem resetWith_responses (cfg : Config) (ok : Bool) (mem : Memory) (now : Word) :
    (State.resetWith cfg ok mem now).responses = [] := rfl

end Sys2Proof.Machine
end

