-- ==== Sys2Proof/Laws/Exec.lean ====
section
/-! SUPPORT. Said once: everything a command can do (`exec_effect`) and everything a step can do (`step_cases`). Later proofs cite
these and never unfold a meaning. -/

namespace Sys2Proof.Machine

theorem perform_halted {body : State → State} {s : State} (h : s.mode = .halted) :
    perform body s = .next (raise .halted s) := by
  unfold perform whenReady; rw [h]

theorem perform_ready {body : State → State} {s : State} (h : s.mode = .ready) :
    perform body s = .next (body s) := by
  unfold perform whenReady; rw [h]

theorem whenInRange_true {c : Bool} {body : State → State} {s : State} (h : c = true) :
    whenInRange c body s = body s := by
  unfold whenInRange; rw [if_pos h]

theorem whenInRange_false {c : Bool} {body : State → State} {s : State} (h : c = false) :
    whenInRange c body s = raise .range s := by
  unfold whenInRange; rw [h]; rfl

/-- What a command can do to the state. `answered` covers every refusal too. -/
inductive Effect (s : State) : State → Prop where
  /-- Only a response is returned. -/
  | answered (st : Status) (d : Byte) (hd : st ≠ .ok → d = 0) : Effect s (respond st d s)
  /-- The working buffer is redrawn. -/
  | drawn (wb : PixelBuffer) (hm : s.mode = .ready) (hl : wb.length = s.wb.length) :
      Effect s (respond .ok 0 { s with wb := wb })
  /-- The panel is dithered from the scratch buffer at `addr`. -/
  | dithered (addr : Word) (hm : s.mode = .ready) :
      Effect s (respond .ok 0 { s with mem := (ditherPanel s.cfg addr s.mem s.wb).1,
                                       wb := (ditherPanel s.cfg addr s.mem s.wb).2 })
  /-- The working buffer is copied to the active one and presented. -/
  | swapped (hm : s.mode = .ready) : Effect s (respond .ok 0 (swapAction s))
  /-- The active buffer is copied back. -/
  | copied (hm : s.mode = .ready) : Effect s (respond .ok 0 (copyAction s))
  /-- A throttled refresh. -/
  | refreshed (hm : s.mode = .ready) (hd : refreshDue s = true) :
      Effect s (respond .ok 1 { copyAction (swapAction s) with last := s.now })
  /-- The working buffer and the display are cleared. -/
  | cleared (hm : s.mode = .ready) :
      Effect s (respond .ok 0 (emit [.tClearFb, .tPresent] { s with wb := List.replicate s.cfg.nb 0 }))

theorem Effect.raise {s : State} (st : Status) : Effect s (raise st s) := .answered st 0 fun _ => rfl

theorem Effect.perform {body : State → State} {s : State} (h : s.mode = .ready → Effect s (body s)) :
    ∃ t, perform body s = .next t ∧ Effect s t := by
  cases hm : s.mode with
  | halted => exact ⟨_, perform_halted hm, .raise _⟩
  | ready => exact ⟨_, perform_ready hm, h hm⟩

theorem Effect.whenInRange {c : Bool} {body : State → State} {s : State} (h : Effect s (body s)) :
    Effect s (whenInRange c body s) := by
  cases c with
  | false => rw [whenInRange_false rfl]; exact .raise _
  | true => rwa [whenInRange_true rfl]

/-- Every command ends with a next state, and that state is one of the effects. -/
theorem exec_effect (i : Instr) (s : State) : ∃ t, exec i s = .next t ∧ Effect s t := by
  cases i with
  | cvtmono888 c => exact Effect.perform fun _ => .answered _ _ (absurd rfl)
  | cvtmono565 w => exact Effect.perform fun _ => .answered _ _ (absurd rfl)
  | cvtgray888 c => exact Effect.perform fun _ => .answered _ _ (absurd rfl)
  | drawpix888 x y c => exact Effect.perform fun hm => Effect.whenInRange (.drawn _ hm (by simp))
  | drawpix565 x y w => exact Effect.perform fun hm => Effect.whenInRange (.drawn _ hm (by simp))
  | getpix x y => exact Effect.perform fun _ => Effect.whenInRange (.answered _ _ (absurd rfl))
  | fillpanelraw addr => exact Effect.perform fun hm => .dithered addr hm
  | swap => exact Effect.perform fun hm => .swapped hm
  | copyfb => exact Effect.perform fun hm => .copied hm
  | update =>
    refine Effect.perform fun hm => ?_
    dsimp only
    split
    · next hd => exact .refreshed hm hd
    · exact .answered _ _ (absurd rfl)
  | clear => exact Effect.perform fun hm => .cleared hm
  | setbrt l => exact Effect.perform fun _ => .answered _ _ (absurd rfl)
  | fillzone888 idx a => exact Effect.perform fun hm => Effect.whenInRange (.drawn _ hm (by simp))
  | fillzone565 idx a => exact Effect.perform fun hm => Effect.whenInRange (.drawn _ hm (by simp))
  | fillpal a p => exact Effect.perform fun hm => .drawn _ hm (by simp)
  | fillpalchg a p f => exact Effect.perform fun hm => .drawn _ hm (by simp)
  | fillscr c => exact Effect.perform fun hm => .drawn _ hm (by simp)

theorem exec_next_effect {i : Instr} {s t : State} (h : exec i s = .next t) : Effect s t := by
  obtain ⟨t', h', he⟩ := exec_effect i s
  rw [h'] at h
  cases h
  exact he

theorem illegalCommand_effect (s : State) : Effect s (illegalCommand s) := by
  unfold illegalCommand whenReady
  split <;> exact .raise _

/-- Everything a step can do, the guard included. -/
theorem step_cases {s t : State} (h : step s = .next t) : s.cfg.admitted = true ∧
    ((s.port = [] ∧ t = s) ∨
     (∃ a v rest, s.port = .store a v :: rest ∧ t = hostStore a v rest s) ∨
     (∃ cmd now rest i, s.port = .issue cmd now :: rest ∧ decode cmd = .ok i ∧
        exec i (acceptCommand now rest s) = .next t) ∨
     (∃ cmd now rest e, s.port = .issue cmd now :: rest ∧ decode cmd = .error e ∧
        t = illegalCommand (acceptCommand now rest s))) := by
  unfold step at h
  split at h
  · next hc =>
    refine ⟨hc, ?_⟩
    split at h
    · next hp => cases h; exact .inl ⟨hp, rfl⟩
    · next a v rest hp => cases h; exact .inr (.inl ⟨a, v, rest, hp, rfl⟩)
    · next cmd now rest hp =>
      split at h
      · next i hd => exact .inr (.inr (.inl ⟨cmd, now, rest, i, hp, hd, h⟩))
      · next e hd => cases h; exact .inr (.inr (.inr ⟨cmd, now, rest, e, hp, hd, rfl⟩))
  · cases h

/-- A step leaves the state alone, stores a host byte, or has one of the effects on the state that accepted a command. -/
theorem step_effect {s t : State} (h : step s = .next t) :
    (s.port = [] ∧ t = s) ∨
    (∃ a v rest, s.port = .store a v :: rest ∧ t = hostStore a v rest s) ∨
    (∃ cmd now rest, s.port = .issue cmd now :: rest ∧ Effect (acceptCommand now rest s) t) := by
  obtain ⟨_, h | h | ⟨cmd, now, rest, i, hp, _, he⟩ | ⟨cmd, now, rest, e, hp, _, rfl⟩⟩ := step_cases h
  · exact .inl h
  · exact .inr (.inl h)
  · exact .inr (.inr ⟨cmd, now, rest, hp, exec_next_effect he⟩)
  · exact .inr (.inr ⟨cmd, now, rest, hp, illegalCommand_effect _⟩)

end Sys2Proof.Machine
end

