-- ==== Sys2Proof/Laws/Operations.lean ====
section
/-! SUPPORT. One lemma for each operation that the meanings share, saying everything it does. -/

namespace Sys2Proof.Machine

/-- The RGB565 threshold by its fields, the weights scaled by the shifts (40_color_reducer.md R83). -/
theorem toMono565_eq (w : Half) : toMono565 w = decide (128000 ≤ 2392 * (w.toNat / 2048) + 2348 * (w.toNat / 32 % 64) + 912 * (w.toNat % 32)) := by
  unfold toMono565 toMono888 lumSum
  rw [unpack565_r, unpack565_g, unpack565_b]
  congr 1
  apply propext
  omega

/-- A bit of a byte by arithmetic (10_state.md R27). -/
theorem bit_toNat (b : Byte) (k : Nat) : (b.getLsbD k).toNat = b.toNat / 2^k % 2 := by
  unfold BitVec.getLsbD
  rw [Nat.testBit_eq_decide_div_mod_eq]
  rcases Nat.mod_two_eq_zero_or_one (b.toNat / 2^k) with h | h <;> simp [h]

/-- Everything `drawPixel` does: one pixel of WB inside the panel, a RANGE answer outside. -/
theorem drawPixel_spec {s : State} {x y : Word} {v : Bool} (hs : s.WellSized) :
    (x.toNat < s.cfg.W ∧ y.toNat < s.cfg.H →
      ∃ wb : PixelBuffer, drawPixel x y v s = { s with wb := wb, responses := s.responses ++ [{ status := .ok, data := 0 }] } ∧
        wb.length = s.wb.length ∧ pixel s.cfg wb x.toNat y.toNat = v ∧
        ∀ x' y', x' < s.cfg.W → y' < s.cfg.H → ¬(x' = x.toNat ∧ y' = y.toNat) →
          pixel s.cfg wb x' y' = pixel s.cfg s.wb x' y') ∧
    (¬(x.toNat < s.cfg.W ∧ y.toNat < s.cfg.H) → drawPixel x y v s = { s with responses := s.responses ++ [{ status := .range, data := 0 }] }) := by
  obtain ⟨_, _, h8, _⟩ := (Config.admitted_iff _).1 hs.cfg_admitted
  constructor
  · rintro ⟨hx, hy⟩
    refine ⟨_, whenInRange_true (by simp [inPanel, hx, hy]), by simp, ?_, ?_⟩
    · exact pixel_setPixel_same v (by rw [hs.wb_length]; exact pixelIdx_lt h8 hx hy)
    · intro x' y' hx' hy' hne
      exact pixel_setPixel_other _ _ hx hx' hne
  · intro h
    exact whenInRange_false (by simp only [inPanel, Bool.and_eq_false_iff, decide_eq_false_iff_not]; tauto)

/-- The `k`-th pixel of the raster order (00_scope.md R15). -/
theorem raster_getElem (w h k : Nat) (hk : k < (raster w h).length) : (raster w h)[k] = (k % w, k / w) := by
  induction h with
  | zero => simp [raster] at hk
  | succ h ih =>
    have e : raster w (h+1) = raster w h ++ (List.range w).map fun x => (x, h) := by
      simp [raster, List.range_succ]
    have hl := length_raster w h
    have hl' := length_raster w (h+1)
    simp only [e]
    by_cases hk' : k < (raster w h).length
    · rw [List.getElem_append_left hk', ih hk']
    · rw [List.getElem_append_right (by omega)]
      have : k < w * h + w := by rw [hl'] at hk; rw [Nat.mul_succ] at hk; exact hk
      have hw : 0 < w := by
        rcases Nat.eq_zero_or_pos w with h0 | h0
        · subst h0; simp at *
        · exact h0
      simp only [List.getElem_map, List.getElem_range, Prod.mk.injEq, hl]
      have e2 : k = (k - w*h) + w * h := by omega
      constructor
      · conv_rhs => rw [e2]
        rw [Nat.add_mul_mod_self_left, Nat.mod_eq_of_lt (by omega)]
      · conv_rhs => rw [e2]
        rw [Nat.add_mul_div_left _ _ hw, Nat.div_eq_of_lt (by omega)]; omega

/-- An RGB888 read depends on its three bytes only. -/
theorem rd888_congr {m m' : Memory} {a : Word} (h : ∀ i, i < 3 → memRead m (ea a i) = memRead m' (ea a i)) : rd888 m a = rd888 m' a := by
  unfold rd888
  have h0 := h 0 (by omega); rw [ea_zero] at h0
  rw [h0, h 1 (by omega), h 2 (by omega)]

/-- The bytes of the panel pixels are at distinct addresses (20_memory.md R47, R52; 00_scope.md R5). -/
theorem panelEa_inj {cfg : Config} {base : Word} (hc : cfg.admitted = true) {x y x' y' i j : Nat} (hx : x < cfg.W) (hy : y < cfg.H) (hx' : x' < cfg.W) (hy' : y' < cfg.H) (hi : i < 3) (hj : j < 3)
   (h : ea (panelEa cfg base x y) i = ea (panelEa cfg base x' y') j) : x = x' ∧ y = y' ∧ i = j := by
  obtain ⟨hW, _, _, _, _, _, _, hsz⟩ := (Config.admitted_iff _).1 hc
  have l1 := panel_offset_lt hx hy
  have l2 := panel_offset_lt hx' hy'
  rw [Nat.mul_assoc] at hsz
  rw [panelEa, panelEa, ea_ea, ea_ea] at h
  have e := ea_inj (by omega) (by omega) h
  have hij : i = j := by omega
  have e2 : y * cfg.W + x = y' * cfg.W + x' := by omega
  have hxx : x = x' := by
    have := congrArg (· % cfg.W) e2
    simpa [Nat.mul_add_mod_of_lt, Nat.add_comm, Nat.mul_comm, Nat.mod_eq_of_lt hx, Nat.mod_eq_of_lt hx'] using this
  subst hxx
  exact ⟨rfl, Nat.eq_of_mul_eq_mul_right (by omega : 0 < cfg.W) (by omega), hij⟩

/-- Everything `diffuse` does to the panel pixels: only the neighbour it names takes the share. -/
theorem rd888_diffuse {cfg : Config} {base : Word} (hc : cfg.admitted = true) {x y : Nat} (err : Int) {m : Memory} (hm : Memory.wf m = true) (k : Int × Int × Int) {x' y' : Nat} (hx' : x' < cfg.W) (hy' : y' < cfg.H) :
   rd888 (diffuse cfg base x y err m k) (panelEa cfg base x' y') =
    if (x' : Int) = x + k.1 ∧ (y' : Int) = y + k.2.1 then addShare (rd888 m (panelEa cfg base x' y')) (share cfg.shareRule err k.2.2) else rd888 m (panelEa cfg base x' y') := by
  split
  · next h =>
    unfold diffuse
    dsimp only
    rw [← h.1, ← h.2, if_pos (by omega)]
    simp only [Int.toNat_natCast]
    exact rd888_wr888 hm _ _
  · next h =>
    refine rd888_congr fun i hi => memRead_diffuse_other fun nx ny h1 h2 h3 h4 j hj e => h ?_
    have e' : ea (panelEa cfg base x' y') i = ea (panelEa cfg base nx ny) j := by
      rw [e]; unfold panelEa; rw [ea_ea]
    obtain ⟨a, b, _⟩ := panelEa_inj hc hx' hy' h3 h4 hi hj e'
    subst a b
    exact ⟨h1, h2⟩

/-- A share of weight 0 is 0. -/
theorem share_zero_weight (r : ShareRule) (e : Int) : share r e 0 = 0 := by cases r <;> simp [share]

/-- The zones divide the panel (00_scope.md R5, R6). -/
theorem zones_divide {cfg : Config} (h : cfg.admitted = true) : 0 < cfg.zpr ∧ cfg.zpr * cfg.ZW = cfg.W ∧ cfg.zrows * cfg.ZH = cfg.H := by
  obtain ⟨hW, hH, _, hZW, hdW, hZH, hdH, _⟩ := (Config.admitted_iff cfg).1 h
  have eW : cfg.zpr * cfg.ZW = cfg.W := Nat.div_mul_cancel (Nat.dvd_of_mod_eq_zero hdW)
  have eH : cfg.zrows * cfg.ZH = cfg.H := Nat.div_mul_cancel (Nat.dvd_of_mod_eq_zero hdH)
  refine ⟨?_, eW, eH⟩
  rcases Nat.eq_zero_or_pos cfg.zpr with h0 | h0
  · rw [h0] at eW; omega
  · exact h0

/-- The zone a panel pixel lies in (43_zone_compositor.md R140). -/
theorem zone_of_pixel {cfg : Config} (h : cfg.admitted = true) {x y : Nat} (hx : x < cfg.W) (hy : y < cfg.H) {j : Nat} :
  (j < cfg.nz ∧ xOff cfg j ≤ x ∧ x < xOff cfg j + cfg.ZW ∧ yOff cfg j ≤ y ∧ y < yOff cfg j + cfg.ZH) ↔ j = (y / cfg.ZH) * cfg.zpr + x / cfg.ZW := by
  obtain ⟨hz, eW, eH⟩ := zones_divide h
  obtain ⟨hW, hH, _, hZW, hdW, hZH, hdH, _⟩ := (Config.admitted_iff cfg).1 h
  have hxz : x / cfg.ZW < cfg.zpr := by rw [Nat.div_lt_iff_lt_mul hZW, eW]; exact hx
  have hyz : y / cfg.ZH < cfg.zrows := by rw [Nat.div_lt_iff_lt_mul hZH, eH]; exact hy
  constructor
  · rintro ⟨h1, h2, h3, h4, h5⟩
    have a : x / cfg.ZW = j % cfg.zpr := by
      unfold xOff at h2 h3
      exact Nat.div_eq_of_lt_le h2 (by rw [Nat.add_mul]; omega)
    have b : y / cfg.ZH = j / cfg.zpr := by
      unfold yOff at h4 h5
      exact Nat.div_eq_of_lt_le h4 (by rw [Nat.add_mul]; omega)
    rw [a, b, Nat.mul_comm, Nat.div_add_mod]
  · rintro rfl
    have e1 : (y / cfg.ZH * cfg.zpr + x / cfg.ZW) % cfg.zpr = x / cfg.ZW := by
      rw [Nat.mul_comm, Nat.mul_add_mod]; exact Nat.mod_eq_of_lt hxz
    have e2 : (y / cfg.ZH * cfg.zpr + x / cfg.ZW) / cfg.zpr = y / cfg.ZH := by
      rw [Nat.mul_comm, Nat.mul_add_div hz, Nat.div_eq_of_lt hxz]; rfl
    unfold xOff yOff
    rw [e1, e2]
    have d1 := Nat.div_add_mod x cfg.ZW
    have d2 := Nat.div_add_mod y cfg.ZH
    have m1 := Nat.mod_lt x hZW
    have m2 := Nat.mod_lt y hZH
    rw [Nat.mul_comm] at d1 d2
    refine ⟨?_, by omega, by omega, by omega, by omega⟩
    unfold Config.nz
    calc _ < y / cfg.ZH * cfg.zpr + cfg.zpr := by omega
      _ = cfg.zpr * (y / cfg.ZH + 1) := by ring
      _ ≤ _ := Nat.mul_le_mul_left _ hyz

/-- Everything `fillZone` does on a valid zone. -/
theorem fillZone_spec {s : State} (hs : s.WellSized) (idx : Word) (hi : idx.toNat < s.cfg.nz) (f : Nat → Nat → Bool) : ∃ wb : PixelBuffer,
   fillZone idx f s = { s with wb := wb, responses := s.responses ++ [{ status := .ok, data := 0 }] } ∧ wb.length = s.wb.length ∧
   (∀ zx zy, zx < s.cfg.ZW → zy < s.cfg.ZH → pixel s.cfg wb (xOff s.cfg idx.toNat + zx) (yOff s.cfg idx.toNat + zy) = f zx zy) ∧
   (∀ x y, x < s.cfg.W → y < s.cfg.H →
        ¬(xOff s.cfg idx.toNat ≤ x ∧ x < xOff s.cfg idx.toNat + s.cfg.ZW ∧
          yOff s.cfg idx.toNat ≤ y ∧ y < yOff s.cfg idx.toNat + s.cfg.ZH) →
        pixel s.cfg wb x y = pixel s.cfg s.wb x y) := by
  obtain ⟨hW, hH, h8, hZW, hdW, hZH, hdH, _⟩ := (Config.admitted_iff _).1 hs.cfg_admitted
  obtain ⟨z1, z2⟩ := zone_in_panel hs.cfg_admitted hi
  refine ⟨_, whenInRange_true (decide_eq_true hi), by simp, fun zx zy hx hy => ?_, fun x y hx hy h => ?_⟩
  · rw [pixel_paint h8 _ _ hs.wb_length z1 z2 (by omega), if_pos (by omega)]
    simp
  · rw [pixel_paint h8 _ _ hs.wb_length z1 z2 hx, if_neg h]

/-- An RGB565 word is low byte first (20_memory.md R42). -/
theorem rd565_toNat (m : Memory) (a : Word) : (rd565 m a).toNat = (memRead m a).toNat + 256 * (memRead m (ea a 1)).toNat := by
  unfold rd565
  rw [BitVec.toNat_append, ← Nat.shiftLeft_add_eq_or_of_lt (memRead m a).isLt, Nat.shiftLeft_eq]; omega

/-- Everything `fillPanel` does. -/
theorem fillPanel_spec {s : State} (hs : s.WellSized) (f : Nat → Nat → Option Bool) : ∃ wb : PixelBuffer,
   fillPanel f s = { s with wb := wb, responses := s.responses ++ [{ status := .ok, data := 0 }] } ∧ wb.length = s.wb.length ∧
   (∀ x y, x < s.cfg.W → y < s.cfg.H → pixel s.cfg wb x y = (f x y).getD (pixel s.cfg s.wb x y)) := by
  obtain ⟨hW, hH, h8, hZW, hdW, hZH, hdH, _⟩ := (Config.admitted_iff _).1 hs.cfg_admitted
  refine ⟨_, rfl, by simp, fun x y hx hy => ?_⟩
  rw [pixel_paint h8 _ _ hs.wb_length (by omega) (by omega) hx, if_pos (by omega)]
  simp

/-- A pixel of a buffer of equal bytes. -/
theorem pixel_replicate {cfg : Config} (v : Byte) {x y : Nat} (h : pixelIdx cfg x y < cfg.nb) : pixel cfg (List.replicate cfg.nb v) x y = v.getLsbD (pixelPos y) := by
  unfold pixel; rw [List.getD_eq_getElem?_getD, List.getElem?_replicate, if_pos h]; rfl

/-- A run of one more step. -/
theorem run_succ (n : Nat) (s t : State) (h : step s = .next t) : run (n+1) s = run n t := by
  rw [run, h]

/-- The two bytes of a response word (30_encoding.md R69). -/
theorem response_word_fields (r : Response) :
    r.word.toNat / 256 = r.status.code.toNat ∧ r.word.toNat % 256 = r.data.toNat := by
  have : r.word.toNat = r.status.code.toNat * 256 + r.data.toNat := by
    unfold Response.word
    rw [BitVec.toNat_append, ← Nat.shiftLeft_add_eq_or_of_lt r.data.isLt, Nat.shiftLeft_eq]
  have := r.data.isLt
  omega

end Sys2Proof.Machine
end

