-- ==== Sys2Proof/Laws/PerInstr.lean ====
section
/-! SUPPORT. Per command: its encoding is a legal command word (spec 30_encoding.md R67), opcode and reserved bits included. -/

namespace Sys2Proof.Laws.EncodeWellFormed

/-- The encoding of the command is a legal command word. -/
def Statement (i : Instr) : Prop := wellFormedCommand (encode i) = true

theorem of_word0 {w0 a b c : Word} {f : Format} (h0 : w0.extractLsb' 8 24 = 0)
    (hf : formatOfOpcode (Machine.opcodeOf w0) = some f) (hr : reservedBitsZero f (Machine.cmdOf w0 a b c) = true) :
    wellFormedCommand (Machine.cmdOf w0 a b c) = true := by
  simp [wellFormedCommand, word0HighZero, h0, hf, hr]

theorem cvtmono888 (c : Rgb) : Statement (.cvtmono888 c) :=
  of_word0 rfl rfl (by simp [reservedBitsZero])

theorem cvtmono565 (w : Half) : Statement (.cvtmono565 w) :=
  of_word0 rfl rfl (by simp [reservedBitsZero])

theorem cvtgray888 (c : Rgb) : Statement (.cvtgray888 c) :=
  of_word0 rfl rfl (by simp [reservedBitsZero])

theorem drawpix888 (x y : Word) (c : Rgb) : Statement (.drawpix888 x y c) :=
  of_word0 rfl rfl (by simp [reservedBitsZero])

theorem drawpix565 (x y : Word) (w : Half) : Statement (.drawpix565 x y w) :=
  of_word0 rfl rfl (by simp [reservedBitsZero])

theorem getpix (x y : Word) : Statement (.getpix x y) :=
  of_word0 rfl rfl (by simp [reservedBitsZero])

theorem fillpanelraw (a : Word) : Statement (.fillpanelraw a) :=
  of_word0 rfl rfl (by simp [reservedBitsZero])

theorem swap : Statement .swap :=
  of_word0 rfl rfl (by simp [reservedBitsZero])

theorem copyfb : Statement .copyfb :=
  of_word0 rfl rfl (by simp [reservedBitsZero])

theorem update : Statement .update :=
  of_word0 rfl rfl (by simp [reservedBitsZero])

theorem clear : Statement .clear :=
  of_word0 rfl rfl (by simp [reservedBitsZero])

theorem setbrt (l : Byte) : Statement (.setbrt l) :=
  of_word0 rfl rfl (by simp [reservedBitsZero])

theorem fillzone888 (i a : Word) : Statement (.fillzone888 i a) :=
  of_word0 rfl rfl (by simp [reservedBitsZero])

theorem fillzone565 (i a : Word) : Statement (.fillzone565 i a) :=
  of_word0 rfl rfl (by simp [reservedBitsZero])

theorem fillpal (a p : Word) : Statement (.fillpal a p) :=
  of_word0 rfl rfl (by simp [reservedBitsZero])

theorem fillpalchg (a p f : Word) : Statement (.fillpalchg a p f) :=
  of_word0 rfl rfl (by simp [reservedBitsZero])

theorem fillscr (c : Rgb) : Statement (.fillscr c) :=
  of_word0 rfl rfl (by simp [reservedBitsZero])

end Sys2Proof.Laws.EncodeWellFormed
end

