-- ==== Sys2Proof/Machine/Asm.lean ====
section
/-! DEFINITION. The textual form of a command (spec 30_encoding.md R71): one line of text to the commands it stands for. A host-side
notation; nothing in the block depends on it. What R71 leaves open of the text (white space, letter case) is log entry 17. -/

namespace Sys2Proof.Machine

/-- The value of a hexadecimal digit. -/
def hexDigit (c : Char) : Option Nat :=
  let n := c.toNat
  if 48 ≤ n ∧ n ≤ 57 then some (n - 48)
  else if 65 ≤ n ∧ n ≤ 70 then some (n - 55)
  else if 97 ≤ n ∧ n ≤ 102 then some (n - 87)
  else none

/-- The value of a decimal digit. -/
def decDigit (c : Char) : Option Nat :=
  let n := c.toNat
  if 48 ≤ n ∧ n ≤ 57 then some (n - 48) else none

/-- A run of digits in a base, added to what stands before it. -/
def digitsFrom (digit : Char → Option Nat) (base : Nat) : Nat → List Char → Option Nat
  | acc, [] => some acc
  | acc, c :: cs => match digit c with
    | some d => digitsFrom digit base (acc * base + d) cs
    | none => none

/-- A number, decimal or `0x` hexadecimal (R71), at least one digit. -/
def parseNumber : List Char → Option Nat
  | '0' :: 'x' :: c :: cs => digitsFrom hexDigit 16 0 (c :: cs)
  | c :: cs => digitsFrom decDigit 10 0 (c :: cs)
  | [] => none

/-- A number that fits in `n` bits. -/
def parseBits (n : Nat) (t : List Char) : Option (BitVec n) :=
  (parseNumber t).bind fun v => if v < 2 ^ n then some (BitVec.ofNat n v) else none

/-- A colour888 operand, `#RRGGBB`, six hexadecimal digits (R71). -/
def parseColour : List Char → Option Rgb
  | ['#', r1, r0, g1, g0, b1, b0] =>
    (digitsFrom hexDigit 16 0 [r1, r0, g1, g0, b1, b0]).map fun v => colour888 (BitVec.ofNat 32 v)
  | _ => none

/-- A colour565 operand, a 16-bit hexadecimal number such as `0xF800` (R71). -/
def parse565 : List Char → Option Half
  | '0' :: 'x' :: t => parseBits 16 ('0' :: 'x' :: t)
  | _ => none

/-- White space between the parts of a line (log entry 17). -/
def isBlank (c : Char) : Bool := c == ' ' || c == '\t'

/-- A text without the white space around it. -/
def trim (t : List Char) : List Char := ((t.dropWhile isBlank).reverse.dropWhile isBlank).reverse

/-- The parts of a text between commas. -/
def splitCommas : List Char → List (List Char)
  | [] => [[]]
  | c :: cs => if c == ',' then [] :: splitCommas cs
    else match splitCommas cs with
      | p :: ps => (c :: p) :: ps
      | [] => [[c]]

/-- The operand texts of a line: none if nothing stands after the mnemonic, else the parts between commas. -/
def operandTexts (t : List Char) : List (List Char) :=
  if (trim t).isEmpty then [] else (splitCommas t).map trim

/-- A mnemonic without operands. -/
def noOperands (is : List Instr) : List (List Char) → Option (List Instr)
  | [] => some is
  | _ => none

/-- A mnemonic with one operand. -/
def oneOperand {α : Type} (p : List Char → Option α) (f : α → Instr) : List (List Char) → Option (List Instr)
  | [t] => (p t).map fun v => [f v]
  | _ => none

/-- A mnemonic with two operands. -/
def twoOperands {α β : Type} (p : List Char → Option α) (q : List Char → Option β) (f : α → β → Instr) :
    List (List Char) → Option (List Instr)
  | [t, u] => (p t).bind fun v => (q u).map fun w => [f v w]
  | _ => none

/-- A mnemonic with three operands. -/
def threeOperands {α β γ : Type} (p : List Char → Option α) (q : List Char → Option β) (r : List Char → Option γ)
    (f : α → β → γ → Instr) : List (List Char) → Option (List Instr)
  | [t, u, v] => (p t).bind fun a => (q u).bind fun b => (r v).map fun c => [f a b c]
  | _ => none

/-- The mnemonics of 30_encoding.md R66 and R72 with what follows each: the operands in the order A, B, C of its format. `TEXT` is not
among them: its arguments are elided in the source (43_zone_compositor.md R147). -/
def mnemonicTable : List (List Char × (List (List Char) → Option (List Instr))) := [
  (['C','V','T','M','O','N','O','8','8','8'], oneOperand parseColour .cvtmono888),
  (['C','V','T','M','O','N','O','5','6','5'], oneOperand parse565 .cvtmono565),
  (['C','V','T','G','R','A','Y','8','8','8'], oneOperand parseColour .cvtgray888),
  (['D','R','A','W','P','I','X','8','8','8'], threeOperands (parseBits 32) (parseBits 32) parseColour .drawpix888),
  (['D','R','A','W','P','I','X','5','6','5'], threeOperands (parseBits 32) (parseBits 32) parse565 .drawpix565),
  (['G','E','T','P','I','X'], twoOperands (parseBits 32) (parseBits 32) .getpix),
  (['F','I','L','L','P','A','N','E','L','R','A','W'], oneOperand (parseBits 32) .fillpanelraw),
  (['S','W','A','P'], noOperands [.swap]),
  (['C','O','P','Y','F','B'], noOperands [.copyfb]),
  (['U','P','D','A','T','E'], noOperands [.update])] ++ [
  (['C','L','E','A','R'], noOperands [.clear]),
  (['S','E','T','B','R','T'], oneOperand (parseBits 8) .setbrt),
  (['F','I','L','L','Z','O','N','E','8','8','8'], twoOperands (parseBits 32) (parseBits 32) .fillzone888),
  (['F','I','L','L','Z','O','N','E','5','6','5'], twoOperands (parseBits 32) (parseBits 32) .fillzone565),
  (['F','I','L','L','P','A','L'], twoOperands (parseBits 32) (parseBits 32) .fillpal),
  (['F','I','L','L','P','A','L','C','H','G'], threeOperands (parseBits 32) (parseBits 32) (parseBits 32) .fillpalchg),
  (['F','I','L','L','S','C','R'], oneOperand parseColour .fillscr),
  (['D','R','A','W','L','I','T'], twoOperands (parseBits 32) (parseBits 32) drawLit),
  (['D','R','A','W','U','N','L','I','T'], twoOperands (parseBits 32) (parseBits 32) drawUnlit),
  (['P','R','E','S','E','N','T','N','O','W'], noOperands presentNow)]

/-- One line of assembly (R71): the commands it stands for, none if it is not of the form. A line that is empty but for white space
and a comment stands for no command. -/
def assembleLine (line : List Char) : Option (List Instr) :=
  let t := trim (line.takeWhile (· != ';'))
  if t.isEmpty then some []
  else
    let mnemonic := t.takeWhile (fun c => !isBlank c)
    match mnemonicTable.find? (fun row => row.1 == mnemonic) with
    | some row => row.2 (operandTexts (t.drop mnemonic.length))
    | none => none

/-- The command words of one line of assembly (R71, R60). -/
def assembleWords (line : List Char) : Option (List Command) := (assembleLine line).map (·.map encode)

end Sys2Proof.Machine
end

