-- ==== Sys2Proof/Tests/Slice0.lean ====
section
/-! SUPPORT. Tests: expected values come from spec/95_test_vectors.md (named in each comment) or from a word written out by hand from
spec/30_encoding.md. Then, for every statement that has hypotheses, a concrete state and operands that meet them. -/

namespace Sys2Proof.Tests

open Sys2Proof Sys2Proof.Machine

set_option Elab.async false

/-! ### Helpers: the test instances of 95_test_vectors.md, the state after a reset, and what to look at in an outcome -/

def cfgTD : Config := { W := 2, H := 8, ZW := 2, ZH := 8, dispAddr := 60, shareRule := .towardZero }
def cfgT8 : Config := { W := 8, H := 8, ZW := 4, ZH := 4, dispAddr := 60, shareRule := .towardZero }
def cfgT16 : Config := { W := 16, H := 16, ZW := 8, ZH := 4, dispAddr := 60, shareRule := .towardZero }
/-- Not admitted by R5: `H mod 8` is not 0. -/
def cfgBad : Config := { W := 8, H := 12, ZW := 4, ZH := 4, dispAddr := 60, shareRule := .towardZero }

def td : State := State.resetWith cfgTD true [] 0
def t8 : State := State.resetWith cfgT8 true [] 0
def t16 : State := State.resetWith cfgT16 true [] 0
def halted8 : State := State.resetWith cfgT8 false [] 0

/-- A run of bytes from an address on, in front of a memory whose addresses all lie above it. -/
def load : Nat → List Byte → Memory → Memory
  | _, [], m => m
  | a, v :: vs, m => if v = 0 then load (a + 1) vs m else (a, v) :: load (a + 1) vs m

def nextOf : Host.Outcome State Fault Refusal → Option State
  | .next t => some t
  | .fault _ => none
  | .refused _ => none

def respOf (o : Host.Outcome State Fault Refusal) : Option Half :=
  (nextOf o).bind fun t => t.responses.getLast?.map Response.word

def wbOf (o : Host.Outcome State Fault Refusal) : Option PixelBuffer := (nextOf o).map (·.wb)

def abOf (o : Host.Outcome State Fault Refusal) : Option PixelBuffer := (nextOf o).map (·.ab)

/-- The events of a step after those that stood before it. -/
def emittedOf (s : State) (o : Host.Outcome State Fault Refusal) : Option (List Event) :=
  (nextOf o).map fun t => t.events.drop s.events.length

/-- One step on a command given by its words `W0 A B C`, at a clock value. -/
def issue (w0 a b c now : Word) (s : State) : Host.Outcome State Fault Refusal :=
  step { s with port := [.issue (cmdOf w0 a b c) now] }

/-- 48 bytes 0xFF at 0x2000 and 16 copies of E0 07 at 0x2100 (V43-1). -/
def memZones : Memory :=
  load 0x2000 (List.replicate 48 0xFF) (load 0x2100 (List.replicate 16 [0xE0#8, 0x07#8]).flatten [])

/-- Palette at 0x3000, index buffer at 0x4000, flag 3 set at 0x5003 (V43-4, V43-5). -/
def memPal : Memory :=
  load 0x3000 [0, 0, 0, 0xFF, 0xFF, 0xFF, 0xFF, 0, 0, 0, 0xFF, 0]
    (load 0x4000 ((List.range 64).map fun k => BitVec.ofNat 8 ((k % 8 + k / 8) % 4)) (load 0x5003 [1] []))

/-! ### WellFormed: an ill-formed word for each check -/

theorem test_wellFormed_refuses_word0_high : wellFormedCommand (cmdOf 0x00000124 0 0 0) = false := by decide +kernel
theorem test_wellFormed_refuses_unknown_opcode : wellFormedCommand (cmdOf 0x07 0 0 0) = false := by decide +kernel
theorem test_wellFormed_refuses_reserved_K : wellFormedCommand (cmdOf 0x01 0x01808080 0 0) = false := by decide +kernel
theorem test_wellFormed_refuses_reserved_K5 : wellFormedCommand (cmdOf 0x02 0x00018410 0 0) = false := by decide +kernel
theorem test_wellFormed_refuses_reserved_P8 : wellFormedCommand (cmdOf 0x04 0 0 0x01FFFFFF) = false := by decide +kernel
theorem test_wellFormed_refuses_reserved_P5 : wellFormedCommand (cmdOf 0x05 0 0 0x00010000) = false := by decide +kernel
theorem test_wellFormed_refuses_reserved_L : wellFormedCommand (cmdOf 0x24 0x00000100 0 0) = false := by decide +kernel
theorem test_wellFormed_accepts_unused_words :
    wellFormedCommand (cmdOf 0x01 0x00808080 0xFFFFFFFF 0xFFFFFFFF) = true := by decide +kernel

/-! ### Decode: `C B A W0` of V40-3, V60-1 and P1 to P3, one word for every constructor, and the rejections by name -/

theorem test_decode_cvtmono888 : decodeTableWord 64 0x0080402000000001 = some (.cvtmono888 ⟨0x80, 0x40, 0x20⟩) := by
  decide +kernel
theorem test_decode_cvtmono565 : decodeTableWord 64 0x0000841000000002 = some (.cvtmono565 0x8410) := by decide +kernel
theorem test_decode_cvtgray888 : decodeTableWord 64 0x0000DA0000000003 = some (.cvtgray888 ⟨0, 0xDA, 0⟩) := by decide +kernel
theorem test_decode_drawpix888 :
    decodeTableWord 128 0x00FFFFFF0000000A0000000300000004 = some (.drawpix888 3 10 ⟨255, 255, 255⟩) := by decide +kernel
theorem test_decode_drawpix565 :
    decodeTableWord 128 0x000007E00000000E0000000F00000005 = some (.drawpix565 15 14 0x07E0) := by decide +kernel
theorem test_decode_getpix : decodeTableWord 96 0x0000000A0000000300000006 = some (.getpix 3 10) := by decide +kernel
theorem test_decode_fillpanelraw : decodeTableWord 64 0x0000100000000010 = some (.fillpanelraw 0x1000) := by decide +kernel
theorem test_decode_swap : decodeTableWord 128 0xDEADBEEFDEADBEEFDEADBEEF00000020 = some .swap := by decide +kernel
theorem test_decode_copyfb : decodeTableWord 32 0x00000021 = some .copyfb := by decide +kernel
theorem test_decode_update : decodeTableWord 32 0x00000022 = some .update := by decide +kernel
theorem test_decode_clear : decodeTableWord 32 0x00000023 = some .clear := by decide +kernel
theorem test_decode_setbrt : decodeTableWord 64 0x000000C800000024 = some (.setbrt 200) := by decide +kernel
theorem test_decode_fillzone888 : decodeTableWord 96 0x000020000000000300000030 = some (.fillzone888 3 0x2000) := by
  decide +kernel
theorem test_decode_fillzone565 : decodeTableWord 96 0x000021000000000100000031 = some (.fillzone565 1 0x2100) := by
  decide +kernel
theorem test_decode_fillpal : decodeTableWord 96 0x000030000000400000000032 = some (.fillpal 0x4000 0x3000) := by decide +kernel
theorem test_decode_fillpalchg :
    decodeTableWord 128 0x00005000000030000000400000000033 = some (.fillpalchg 0x4000 0x3000 0x5000) := by decide +kernel
theorem test_decode_fillscr : decodeTableWord 64 0x007F8081_00000034 = some (.fillscr ⟨0x7F, 0x80, 0x81⟩) := by decide +kernel

/-- R67: each clause by its name. -/
theorem test_reject_word0 : decode (cmdOf 0x124 0 0 0) = .error .word0ReservedBits := by rfl
theorem test_reject_opcode : decode (cmdOf 0x07 0 0 0) = .error .unknownOpcode := by rfl
theorem test_reject_operand : decode (cmdOf 0x04 9 0 0x01FFFFFF) = .error .operandReservedBits := by rfl
/-- R60 to R65, R71: the words of `DRAWPIX888 3, 10, #FFFFFF`. -/
theorem test_encode_drawpix888 :
    encode (.drawpix888 3 10 ⟨255, 255, 255⟩) = 0x00FFFFFF0000000A0000000300000004#128 := by decide +kernel

/-! ### Colour converter and pixel commands -/

/-- V40-3: exactly the threshold is lit. -/
theorem test_cvtmono888_at_threshold : respOf (issue 0x01 0x00808080 0 0 0 t8) = some 0x0001 := by decide +kernel
/-- V40-1: (0,173,232) has S = 127999, one short. -/
theorem test_cvtmono888_one_short : respOf (exec (.cvtmono888 ⟨0, 173, 232⟩) t8) = some 0x0000 := by decide +kernel
/-- V40-2: 0x8410 is (128,128,128). -/
theorem test_cvtmono565_at_threshold : respOf (exec (.cvtmono565 0x8410) t8) = some 0x0001 := by decide +kernel
/-- V40-2: 0xE007 has S = 73360; the byte-swapped 0x07E0 is lit. -/
theorem test_cvtmono565_channels :
    respOf (exec (.cvtmono565 0xE007) t8) = some 0x0000 ∧ respOf (exec (.cvtmono565 0x07E0) t8) = some 0x0001 := by decide +kernel
/-- V40-3: pure red is 76. -/
theorem test_cvtgray888_red : respOf (exec (.cvtgray888 ⟨255, 0, 0⟩) t8) = some 0x004C := by decide +kernel
/-- V40-3: 127966 div 1000 is 127, truncated. -/
theorem test_cvtgray888_truncates : respOf (exec (.cvtgray888 ⟨0, 218, 0⟩) t8) = some 0x007F := by decide +kernel
/-- V40-4, P1 step 1. -/
theorem test_drawpix888_places_bit :
    wbOf (issue 0x04 3 10 0x00FFFFFF 0 t16) = some ((List.replicate 32 0).set 19 0x04) := by decide +kernel
/-- V40-4: writing unlit clears one bit. -/
theorem test_drawpix888_unlit_clears :
    wbOf (exec (.drawpix888 3 10 ⟨0, 0, 0⟩) { t16 with wb := (List.replicate 32 0).set 19 0xFF }) =
      some ((List.replicate 32 0).set 19 0xFB) := by decide +kernel
/-- V40-4, P1 step 3. -/
theorem test_drawpix565_places_bit :
    wbOf (issue 0x05 15 15 0x07E0 0 t16) = some ((List.replicate 32 0).set 31 0x80) := by decide +kernel
/-- V60-1: RANGE, nothing written. -/
theorem test_drawpix565_range :
    respOf (exec (.drawpix565 16 0 0x07E0) t16) = some 0x0100 ∧
    wbOf (exec (.drawpix565 16 0 0x07E0) t16) = some (List.replicate 32 0) := by decide +kernel
/-- P1 step 2: the lit pixel reads 1, its neighbours 0. -/
theorem test_getpix_reads_bit :
    respOf (exec (.getpix 3 10) { t16 with wb := (List.replicate 32 0).set 19 0x04 }) = some 0x0001 ∧
    respOf (exec (.getpix 3 11) { t16 with wb := (List.replicate 32 0).set 19 0x04 }) = some 0x0000 := by decide +kernel
/-- V40-4: `GETPIX 16, 16` is RANGE. -/
theorem test_getpix_range : respOf (exec (.getpix 16 16) t16) = some 0x0100 := by decide +kernel

/-! ### Ditherer -/

/-- V41-2: the whole trace of a mid-grey TD panel, in WB and in the scratch buffer. -/
theorem test_fillpanelraw_trace :
    (nextOf (exec (.fillpanelraw 0x1000) { td with mem := load 0x1000 (List.replicate 48 0x80) [] })).map
        (fun t => (t.wb, (List.range 16).map fun k => (memRead t.mem (ea 0x1000 (3 * k))).toNat)) =
      some ([0xAA, 0x55], [128, 184, 155, 71, 110, 192, 151, 70, 109, 190, 150, 69, 108, 190, 149, 68]) := by decide +kernel
/-- V41-2 and its note: the two readings of D13 at err = -71. -/
theorem test_share_rules :
    share .towardZero (-71) 3 = -13 ∧ share .towardZero (-71) 5 = -22 ∧ share .floor (-71) 3 = -14 ∧ share .floor (-71) 5 = -23 := by
  decide

/-! ### Framebuffer manager and throttle -/

/-- V42-2, first line. -/
theorem test_swap_copies_and_emits :
    abOf (exec .swap { td with wb := [0xAA, 0x55] }) = some [0xAA, 0x55] ∧
    emittedOf td (exec .swap { td with wb := [0xAA, 0x55] }) =
      some [.tClearFb, .tBlit 0 0 [0xAA, 0x55] 2 8 1, .tPresent] := by decide +kernel
/-- V42-2, second line. -/
theorem test_copyfb_restores :
    wbOf (exec .copyfb { td with wb := [0xFF, 0x00], ab := [0xAA, 0x55] }) = some [0xAA, 0x55] := by decide +kernel
/-- V42-1: 32 is too early across the wrap, 33 refreshes. -/
theorem test_update_wrap :
    respOf (issue 0x22 0 0 0 0x10 { td with last := 0xFFFFFFF0 }) = some 0x0000 ∧
    respOf (issue 0x22 0 0 0 0x11 { td with last := 0xFFFFFFF0 }) = some 0x0001 := by decide +kernel
/-- V42-1, P4 step 2: LAST takes the sample; WB, AB equal. -/
theorem test_update_sets_last :
    (nextOf (issue 0x22 0 0 0 133 { td with last := 100, wb := [1, 0] })).map (fun t => (t.last, t.wb, t.ab)) =
      some (133, [1, 0], [1, 0]) := by decide +kernel
/-- V42-2, third line: CLEAR keeps AB. -/
theorem test_clear_keeps_active :
    wbOf (exec .clear { td with wb := [0xAA, 0x55], ab := [0xAA, 0x55] }) = some [0, 0] ∧
    abOf (exec .clear { td with wb := [0xAA, 0x55], ab := [0xAA, 0x55] }) = some [0xAA, 0x55] ∧
    emittedOf td (exec .clear { td with wb := [0xAA, 0x55] }) = some [.tClearFb, .tPresent] := by decide +kernel
/-- V42-2: SETBRT 200 changes neither buffer; a reserved bit is ILLEGAL. -/
theorem test_setbrt_inert :
    wbOf (issue 0x24 200 0 0 0 { td with wb := [0x12, 0x34] }) = some [0x12, 0x34] ∧
    respOf (issue 0x24 200 0 0 0 td) = some 0x0000 ∧ respOf (issue 0x24 0x100 0 0 0 td) = some 0x0200 := by decide +kernel

/-! ### Fills -/

/-- V43-1, lines 1, 4 and 5: zone 3, zone 1 (the other offset), the bytes outside kept; zone 2. -/
theorem test_fillzone888_places_zone :
    wbOf (issue 0x30 3 0x2000 0 0 { t8 with mem := memZones }) = some [0, 0, 0, 0, 0xF0, 0xF0, 0xF0, 0xF0] ∧
    wbOf (exec (.fillzone888 1 0x2000) { t8 with mem := memZones }) = some [0, 0, 0, 0, 0x0F, 0x0F, 0x0F, 0x0F] ∧
    wbOf (exec (.fillzone888 2 0x2000) { t8 with mem := memZones }) = some [0xF0, 0xF0, 0xF0, 0xF0, 0, 0, 0, 0] := by
  decide +kernel
/-- V43-1, line 3: an index of NZ is RANGE. -/
theorem test_fillzone888_range : respOf (exec (.fillzone888 4 0x2000) { t8 with mem := memZones }) = some 0x0100 := by
  decide +kernel
/-- V43-1, line 2. -/
theorem test_fillzone565_places_zone :
    wbOf (exec (.fillzone565 0 0x2100) { t8 with mem := memZones, wb := [0, 0, 0, 0, 0xF0, 0xF0, 0xF0, 0xF0] }) =
      some [0x0F, 0x0F, 0x0F, 0x0F, 0xF0, 0xF0, 0xF0, 0xF0] := by decide +kernel
/-- V43-3: one byte further on, the pairs read 07 E0, which is the unlit word 0xE007. -/
theorem test_fillzone565_byte_order : toMono565 (rd565 memZones 0x2101) = false ∧ toMono565 (rd565 memZones 0x2100) = true := by
  decide +kernel
/-- V43-4. -/
theorem test_fillpal_checkerboard :
    wbOf (issue 0x32 0x4000 0x3000 0 0 { t8 with mem := memPal, wb := List.replicate 8 0x3C }) =
      some [0xAA, 0x55, 0xAA, 0x55, 0xAA, 0x55, 0xAA, 0x55] := by decide +kernel
/-- V43-5. -/
theorem test_fillpalchg_flagged_only :
    wbOf (issue 0x33 0x4000 0x3000 0x5000 0 { t8 with mem := memPal, wb := [0x0F, 0x0F, 0x0F, 0x0F, 0xF0, 0xF0, 0xF0, 0xF0] }) =
      some [0x8F, 0x4F, 0x2F, 0x1F, 0xF8, 0xF4, 0xF2, 0xF1] := by decide +kernel
/-- V43-6: mid-grey is lit. -/
theorem test_fillscr_lit : wbOf (issue 0x34 0x00808080 0 0 0 t8) = some (List.replicate 8 0xFF) := by decide +kernel
/-- V43-6: magenta is unlit; a reserved bit is ILLEGAL. -/
theorem test_fillscr_unlit :
    wbOf (exec (.fillscr ⟨255, 0, 255⟩) { t8 with wb := List.replicate 8 0x3C }) = some (List.replicate 8 0x00) ∧
    respOf (issue 0x34 0x01000000 0 0 0 t8) = some 0x0200 := by decide +kernel

/-! ### Refusals -/

/-- V60-1: ILLEGAL outranks RANGE; unused words are ignored. -/
theorem test_refusal_priority :
    respOf (issue 0x04 9 0 0x01FFFFFF 0 t8) = some 0x0200 ∧ respOf (issue 0x04 9 0 0x00FFFFFF 0 t8) = some 0x0100 ∧
    respOf (issue 0x20 0xDEADBEEF 0xDEADBEEF 0xDEADBEEF 0 t8) = some 0x0000 := by decide +kernel
/-- P5: HALTED outranks everything, and only T_INIT was emitted. -/
theorem test_halted_refuses :
    respOf (issue 0x04 0 0 0x00FFFFFF 0 halted8) = some 0x0300 ∧ respOf (issue 0x07 0 0 0 0 halted8) = some 0x0300 ∧
    respOf (issue 0x22 0 0 0 1000 halted8) = some 0x0300 ∧ halted8.events = [.tInit 60] := by decide +kernel

/-! ### Host side -/

/-- The example of R71. -/
theorem test_assemble_example :
    assembleWords 
      ['D', 'R', 'A', 'W', 'P', 'I', 'X', '8', '8', '8', ' ', '3', ',', ' ', '1', '0', ',', ' ', '#', 'F', 'F', 'F', 'F', 'F', 'F', ';', 'l', 'i', 't']
      = some [0x00FFFFFF0000000A0000000300000004#128] := by decide +kernel
/-- R72. -/
theorem test_assemble_presentnow : assembleLine ['P', 'R', 'E', 'S', 'E', 'N', 'T', 'N', 'O', 'W'] = some [.swap, .copyfb] := by decide +kernel
/-- R147: a one-column glyph with bit 0 set, transparent: one lit pixel at the text's origin; inverted: the other 23. -/
theorem test_text_cell :
    text (fun _ c => if c = 0 then 1 else 0) [65] 2 3 true false = [drawLit 2 3] ∧
    (text (fun _ c => if c = 0 then 1 else 0) [65] 2 3 true true).length = 23 := by decide +kernel
/-- withFetchWord puts a command where the next step takes it. -/
theorem test_withFetchWord :
    respOf (step (State.reset.withFetchWord 64 0x0080808000000001)) = some 0x0001 := by decide +kernel

/-! ### Witnesses: a state and operands that meet every hypothesis of each statement -/

theorem td_wellSized : td.WellSized := ⟨by decide, by decide, by decide, by decide⟩
theorem t8_wellSized : t8.WellSized := ⟨by decide, by decide, by decide, by decide⟩
theorem t16_wellSized : t16.WellSized := ⟨by decide, by decide, by decide, by decide⟩

theorem witness_CvtMono888AnswersThreshold : t8.mode = .ready := rfl
theorem witness_CvtMono565AnswersWeightedFields : t8.mode = .ready := rfl
theorem witness_CvtGray888AnswersTruncatedLuminance : t8.mode = .ready := rfl
/-- In the panel at its last pixel; outside it by one in either coordinate. -/
theorem witness_DrawPix888WritesExactlyOnePixel :
    t16.WellSized ∧ t16.mode = .ready ∧
    ((15 : Word).toNat < t16.cfg.W ∧ (15 : Word).toNat < t16.cfg.H) ∧
    ¬((16 : Word).toNat < t16.cfg.W ∧ (0 : Word).toNat < t16.cfg.H) ∧
    ¬((0 : Word).toNat < t16.cfg.W ∧ (16 : Word).toNat < t16.cfg.H) := ⟨t16_wellSized, by decide⟩
theorem witness_DrawPix565WritesExactlyOnePixel :
    t16.WellSized ∧ t16.mode = .ready ∧
    ((15 : Word).toNat < t16.cfg.W ∧ (15 : Word).toNat < t16.cfg.H) ∧
    ¬((16 : Word).toNat < t16.cfg.W ∧ (0 : Word).toNat < t16.cfg.H) ∧
    ¬((0 : Word).toNat < t16.cfg.W ∧ (16 : Word).toNat < t16.cfg.H) := ⟨t16_wellSized, by decide⟩
theorem witness_GetPixAnswersWorkingBit :
    t16.mode = .ready ∧ ((15 : Word).toNat < t16.cfg.W ∧ (15 : Word).toNat < t16.cfg.H) ∧
    ¬((16 : Word).toNat < t16.cfg.W ∧ (16 : Word).toNat < t16.cfg.H) := by decide
theorem witness_DrawThenGetPixRoundTrips :
    t16.WellSized ∧ t16.mode = .ready ∧ (15 : Word).toNat < t16.cfg.W ∧ (15 : Word).toNat < t16.cfg.H :=
  ⟨t16_wellSized, by decide⟩
/-- The last byte of the buffer, at its first and at its last bit; another byte. -/
theorem witness_PixelPrimitivesFollowTheirArithmetic :
    15 + (15 / 8) * cfgT16.W < t16.wb.length ∧ 15 + (8 / 8) * cfgT16.W < t16.wb.length ∧ 30 ≠ 15 + (15 / 8) * cfgT16.W := by
  decide
theorem witness_EveryBufferBitIsOnePixel :
    cfgT16.admitted = true ∧ (15 < cfgT16.W ∧ 15 < cfgT16.H) ∧ (31 < cfgT16.nb ∧ 7 < 8) := by decide
/-- A positive, a negative and a zero product. -/
theorem witness_ShareTruncatesTowardZero :
    (0 : Int) ≤ 128 * 7 ∧ (-71 : Int) * 3 ≤ 0 ∧ (0 : Int) ≤ 0 * 7 ∧ (0 : Int) * 7 ≤ 0 := by decide
theorem witness_DitherErrorAndSharesAreBounded :
    ((1, 0, 7) : Int × Int × Int) ∈ kernel ∧ ((1, 1, 1) : Int × Int × Int) ∈ kernel := by decide
/-- The last pixel of the panel, and the first address after the scratch buffer. -/
theorem witness_DitherStepSharesErrorWithNeighbours :
    cfgTD.admitted = true ∧ Memory.wf td.mem = true ∧ td.wb.length = cfgTD.nb ∧ 1 < cfgTD.W ∧ 7 < cfgTD.H ∧
    ∀ off, off < 3 * (cfgTD.W * cfgTD.H) → (0x1030 : Word) ≠ ea 0x1000 off := by decide +kernel
/-- The first and the last step of the pass. -/
theorem witness_FillPanelRawVisitsInRasterOrder :
    td.cfg.admitted = true ∧ td.mode = .ready ∧ 0 < td.cfg.W * td.cfg.H ∧ 15 < td.cfg.W * td.cfg.H := by decide
/-- The bytes of the first pixel, and the first byte after the scratch buffer. -/
theorem witness_FillPanelRawKeepsOtherMemory :
    td.mode = .ready ∧ ∀ a : Word, a.toNat = 0x1000 ∨ a.toNat = 0x1002 ∨ a.toNat = 0x1030 →
      ∀ x y, x < td.cfg.W → y < td.cfg.H → ¬(x = 0 ∧ y = 0) → ∀ i, i < 3 → a ≠ ea (panelEa td.cfg 0x1000 x y) i := by
  refine ⟨rfl, fun a ha x y hx hy hne i hi h => ?_⟩
  have hW : td.cfg.W = 2 := rfl
  have hH : td.cfg.H = 8 := rfl
  rw [hW] at hx
  rw [hH] at hy
  have e : a.toNat = 0x1000 + (3 * (y * 2 + x) + i) := by
    rw [h, panelEa, ea_ea, ea_toNat, hW]
    exact Nat.mod_eq_of_lt (by show 0x1000 + (3 * (y * 2 + x) + i) < 2 ^ 32; omega)
  omega
/-- Black on memory with nothing listed; white on 48 stored bytes. -/
theorem witness_DitherKeepsUniformWhiteAndBlack :
    (td.WellSized ∧ td.mode = .ready ∧ ((0 : Byte) = 0 ∨ (0 : Byte) = 255) ∧
      ∀ off, off < 3 * (td.cfg.W * td.cfg.H) → memRead td.mem (ea 0x1000 off) = 0) ∧
    let s := { td with mem := load 0x1000 (List.replicate 48 255) [] }
    s.WellSized ∧ s.mode = .ready ∧ ((255 : Byte) = 0 ∨ (255 : Byte) = 255) ∧
      ∀ off, off < 3 * (td.cfg.W * td.cfg.H) → memRead s.mem (ea 0x1000 off) = 255 :=
  ⟨⟨td_wellSized, by decide +kernel⟩, ⟨by decide, by decide, by decide, by decide +kernel⟩, by decide +kernel⟩
theorem witness_FillPanelRawIgnoresOldWorkingBuffer :
    td.WellSized ∧ td.mode = .ready ∧ ([0xFF, 0x3C] : PixelBuffer).length = td.cfg.nb := ⟨td_wellSized, by decide⟩
theorem witness_SwapCopiesAndPresents : td.mode = .ready := rfl
theorem witness_CopyFbRestoresActive : td.mode = .ready := rfl
/-- 33 and 32 milliseconds, across the wrap of the counter. -/
theorem witness_UpdateRefreshesWhenDue :
    ({ td with last := 0xFFFFFFF0, now := 0x11 } : State).mode = .ready ∧
    33 ≤ ((0x11 : Word).toNat + 2 ^ 32 - (0xFFFFFFF0 : Word).toNat) % 2 ^ 32 ∧
    ((0x10 : Word).toNat + 2 ^ 32 - (0xFFFFFFF0 : Word).toNat) % 2 ^ 32 < 33 := by decide
theorem witness_ClearBlanksWorkingAndDisplay : td.mode = .ready := rfl
theorem witness_SetBrightnessChangesNothing : td.mode = .ready := rfl
theorem witness_SwapThenCopyLeavesBuffersEqual : td.mode = .ready := rfl
/-- True times on either side of the wrap, 33 and 32 apart, and the longest distance the statement admits. -/
theorem witness_ThrottleIsExactAcrossClockWrap :
    ({ td with last := BitVec.ofNat 32 4294967280, now := BitVec.ofNat 32 4294967313 } : State).mode = .ready ∧
    4294967280 ≤ 4294967313 ∧ 4294967313 < 4294967280 + 2 ^ 32 ∧ 33 ≤ 4294967313 - 4294967280 ∧
    4294967312 - 4294967280 < 33 ∧ 4294967280 + (2 ^ 32 - 1) < 4294967280 + 2 ^ 32 := by decide
/-- A pixel drawn since reset, LAST still 0: the clock at 32 and at 33. -/
theorem witness_FirstUpdateAfterResetWaits :
    let s : State := { td with wb := [1, 0], now := 32 }
    let u : State := { td with wb := [1, 0], now := 33 }
    (s.mode = .ready ∧ s.last = 0 ∧ s.now.toNat < 33) ∧ (u.mode = .ready ∧ u.last = 0 ∧ 33 ≤ u.now.toNat) := by decide
theorem witness_UpdateTwiceWithinIntervalPresentsOnce :
    let s := { t8 with port := [.issue (encode .update) 33, .issue (encode .update) 65, .issue (encode .update) 66] }
    s.cfg.admitted = true ∧ s.mode = .ready ∧ 33 ≤ ((33 : Word) - s.last).toNat ∧ ((65 : Word) - 33).toNat < 33 ∧
    33 ≤ ((66 : Word) - 33).toNat := by decide
/-- Three times in a window, two of them equal, the last at its end, on the port. -/
theorem witness_UpdatesInOneIntervalPresentAtMostOnce :
    let times := [100, 100, 132]
    let s : State := { t8 with port := times.map fun t => .issue (encode .update) (BitVec.ofNat 32 t) }
    s.cfg.admitted = true ∧ times.Pairwise (· ≤ ·) ∧ (∀ t ∈ times, ∀ u ∈ times, u < t + 33) ∧
    s.port = times.map (fun t => .issue (encode .update) (BitVec.ofNat 32 t)) := ⟨by decide, by decide, by decide, rfl⟩
/-- The last valid zone and the first invalid index; the last pixel. -/
theorem witness_ZonesTileThePanel :
    cfgT16.admitted = true ∧ 7 < cfgT16.nz ∧ cfgT16.nz ≤ 8 ∧ (15 < cfgT16.W ∧ 15 < cfgT16.H) ∧
    (t16.cfg = cfgT16 ∧ t16.mode = .ready ∧ cfgT16.nz ≤ (8 : Word).toNat) := by decide
/-- The last zone; its last pixel; the panel pixels on either side of its edge. -/
theorem witness_FillZone888DrawsItsZone :
    t8.WellSized ∧ t8.mode = .ready ∧ (3 : Word).toNat < t8.cfg.nz ∧ (3 < t8.cfg.ZW ∧ 3 < t8.cfg.ZH) ∧
    ¬(xOff t8.cfg 3 ≤ 3 ∧ 3 < xOff t8.cfg 3 + t8.cfg.ZW ∧ yOff t8.cfg 3 ≤ 4 ∧ 4 < yOff t8.cfg 3 + t8.cfg.ZH) :=
  ⟨t8_wellSized, by decide⟩
theorem witness_FillZone565DrawsItsZone :
    t8.WellSized ∧ t8.mode = .ready ∧ (3 : Word).toNat < t8.cfg.nz ∧ (3 < t8.cfg.ZW ∧ 3 < t8.cfg.ZH) ∧
    ¬(xOff t8.cfg 3 ≤ 4 ∧ 4 < xOff t8.cfg 3 + t8.cfg.ZW ∧ yOff t8.cfg 3 ≤ 3 ∧ 3 < yOff t8.cfg 3 + t8.cfg.ZH) :=
  ⟨t8_wellSized, by decide⟩
theorem witness_FillPalDrawsEveryPixel : t8.WellSized ∧ t8.mode = .ready ∧ 7 < t8.cfg.W ∧ 7 < t8.cfg.H :=
  ⟨t8_wellSized, by decide⟩
theorem witness_FillPalChgDrawsFlaggedPixels : t8.WellSized ∧ t8.mode = .ready ∧ 7 < t8.cfg.W ∧ 7 < t8.cfg.H :=
  ⟨t8_wellSized, by decide⟩
theorem witness_FillScrFillsEveryByte : t8.WellSized ∧ t8.mode = .ready := ⟨t8_wellSized, rfl⟩
/-- 256 flags set; none set. -/
theorem witness_PaletteFlagsDecideTheFill :
    (State.WellSized { t8 with mem := load 0x5000 (List.replicate 256 1) [] } ∧
      ({ t8 with mem := load 0x5000 (List.replicate 256 1) [] } : State).mode = .ready ∧
      ∀ i, i < 256 → memRead (load 0x5000 (List.replicate 256 1) []) (ea 0x5000 i) ≠ 0) ∧
    (t8.WellSized ∧ t8.mode = .ready ∧ ∀ i, i < 256 → memRead t8.mem (ea 0x5000 i) = 0) :=
  ⟨⟨⟨by decide, by decide, by decide, by decide +kernel⟩, rfl, by decide +kernel⟩, t8_wellSized, by decide +kernel⟩
theorem witness_AllZonesMakeTheWholePanel :
    let tile := fun i : Nat => BitVec.ofNat 32 (0x2000 + 48 * i)
    let s : State :=
      { t8 with port := (List.range t8.cfg.nz).map fun i => .issue (encode (.fillzone888 (BitVec.ofNat 32 i) (tile i))) 0 }
    s.WellSized ∧ s.mode = .ready ∧
    s.port = (List.range s.cfg.nz).map (fun i => .issue (encode (.fillzone888 (BitVec.ofNat 32 i) (tile i))) 0) :=
  ⟨⟨by decide, by decide, by decide, by decide⟩, rfl, rfl⟩
/-- A memory that differs in a byte of none of the buffers; for the palette fills also in the entry of an index that is not met, and for
FILLPALCHG in the entry of an index that is met and not flagged. -/
theorem witness_FillsReadOnlyTheirBuffers :
    let m := memWrite memZones 0x9000 7
    let p := memWrite memPal 0x300C 7
    let q := memWrite memPal 0x3003 0
    (∀ off, off < 3 * (t8.cfg.ZW * t8.cfg.ZH) → memRead m (ea 0x2000 off) = memRead memZones (ea 0x2000 off)) ∧
    (∀ off, off < 2 * (t8.cfg.ZW * t8.cfg.ZH) → memRead m (ea 0x2100 off) = memRead memZones (ea 0x2100 off)) ∧
    (∀ off, off < t8.cfg.W * t8.cfg.H → memRead p (ea 0x4000 off) = memRead memPal (ea 0x4000 off) ∧
      ∀ j, j < 3 → memRead p (ea 0x3000 (3 * (memRead memPal (ea 0x4000 off)).toNat + j)) =
        memRead memPal (ea 0x3000 (3 * (memRead memPal (ea 0x4000 off)).toNat + j))) ∧
    (∀ off, off < t8.cfg.W * t8.cfg.H → memRead q (ea 0x4000 off) = memRead memPal (ea 0x4000 off) ∧
      memRead q (ea 0x5000 (memRead memPal (ea 0x4000 off)).toNat) =
        memRead memPal (ea 0x5000 (memRead memPal (ea 0x4000 off)).toNat) ∧
      (memRead memPal (ea 0x5000 (memRead memPal (ea 0x4000 off)).toNat) ≠ 0 →
        ∀ j, j < 3 → memRead q (ea 0x3000 (3 * (memRead memPal (ea 0x4000 off)).toNat + j)) =
          memRead memPal (ea 0x3000 (3 * (memRead memPal (ea 0x4000 off)).toNat + j)))) := by decide +kernel
/-- The top byte of the address space, and the byte beside it. -/
theorem witness_HostStoreIsReadBack :
    let s : State := { t8 with port := [.store 0xFFFFFFFF 0x5A] }
    s.cfg.admitted = true ∧ Memory.wf s.mem = true ∧ s.port = .store 0xFFFFFFFF 0x5A :: [] ∧ (0 : Word) ≠ 0xFFFFFFFF := by decide
/-- A word of each format, the unused words different. -/
theorem witness_UnusedOperandWordsAreIgnored :
    formatOfOpcode (opcodeOf 0x20) = some .N ∧ formatOfOpcode (opcodeOf 0x01) = some .K ∧
    formatOfOpcode (opcodeOf 0x02) = some .K5 ∧ formatOfOpcode (opcodeOf 0x04) = some .P8 ∧
    formatOfOpcode (opcodeOf 0x05) = some .P5 ∧ formatOfOpcode (opcodeOf 0x06) = some .XY ∧
    formatOfOpcode (opcodeOf 0x10) = some .M1 ∧ formatOfOpcode (opcodeOf 0x30) = some .ZM ∧
    formatOfOpcode (opcodeOf 0x32) = some .M2 ∧ formatOfOpcode (opcodeOf 0x33) = some .M3 ∧
    formatOfOpcode (opcodeOf 0x24) = some .L := by decide
theorem witness_StepRunsTheDecodedCommand :
    let s : State := { t8 with port := [.issue (cmdOf 0x20 0 0 0) 5] }
    s.cfg.admitted = true ∧ s.port = .issue (cmdOf 0x20 0 0 0) 5 :: [] ∧ decode (cmdOf 0x20 0 0 0) = .ok .swap :=
  ⟨by decide, rfl, rfl⟩
/-- One READY and one HALTED state; the words of the tests above show each status. -/
theorem witness_EachRefusalHasItsCause :
    (∀ s ∈ [t8, halted8], s.cfg.admitted = true) ∧
    respOf (issue 0x30 4 0 0 0 t8) = some 0x0100 ∧ respOf (issue 0x30 3 0 0 0 t8) = some 0x0000 ∧
    respOf (issue 0x31 4 0 0 0 t8) = some 0x0100 ∧ respOf (issue 0x06 0 8 0 0 t8) = some 0x0100 ∧
    respOf (issue 0x00 0 0 0 0 t8) = some 0x0200 ∧ respOf (issue 0x00 0 0 0 0 halted8) = some 0x0300 := by decide +kernel
/-- A command refused for each of the three causes. -/
theorem witness_RefusalLeavesEverything :
    ((nextOf (issue 0x04 8 0 0 0 t8)).map fun t => t.responses) = some (t8.responses ++ [⟨.range, 0⟩]) ∧
    ((nextOf (issue 0x07 0 0 0 0 t8)).map fun t => t.responses) = some (t8.responses ++ [⟨.illegal, 0⟩]) ∧
    ((nextOf (issue 0x20 0 0 0 0 halted8)).map fun t => t.responses) = some (halted8.responses ++ [⟨.halted, 0⟩]) := by
  decide +kernel
theorem witness_HaltedRefusesEveryWord :
    let s : State := { halted8 with port := [.issue (cmdOf 0x07 0 0 0) 5] }
    s.cfg.admitted = true ∧ s.mode = .halted ∧ s.port = .issue (cmdOf 0x07 0 0 0) 5 :: [] := by decide
/-- R5 on either side: `H = 8` is admitted, `H = 12` is not. -/
theorem witness_StepAlwaysCompletesWhenAdmitted : t8.cfg.admitted = true ∧ cfgBad.admitted = false := by
  decide
theorem witness_IdleBlockKeepsItsState : t8.cfg.admitted = true ∧ t8.port = [] := by decide
/-- FILLPANELRAW, SWAP and COPYFB each complete: one command for each exception and for each clause. -/
theorem witness_OnlyNamedCommandsTouchMemoryClockTransport :
    (nextOf (exec (.fillpanelraw 0x1000) { td with mem := load 0x1000 (List.replicate 48 0x80) [] })).isSome = true ∧
    (∀ addr : Word, Instr.swap ≠ .fillpanelraw addr) ∧ Instr.swap ≠ .update ∧ (nextOf (exec .swap t8)).isSome = true ∧
    (Instr.copyfb ≠ .swap ∧ Instr.copyfb ≠ .update ∧ Instr.copyfb ≠ .clear) ∧ (nextOf (exec .copyfb t8)).isSome = true := by
  refine ⟨by decide +kernel, by simp, by simp, by decide +kernel, by simp, by decide +kernel⟩
/-- A step that changes LAST and AB. -/
theorem witness_ModeLastAndActiveHaveTheirWriters :
    ((nextOf (issue 0x22 0 0 0 33 { td with wb := [1, 0] })).map fun t => (t.last != td.last, t.ab != td.ab)) =
      some (true, true) := by decide +kernel
theorem witness_StepKeepsWellSized :
    State.WellSized { td with port := [.issue (cmdOf 0x10 0x1000 0 0) 5] } ∧ (nextOf (issue 0x10 0x1000 0 0 5 td)).isSome = true :=
  ⟨⟨by decide, by decide, by decide, by decide⟩, by decide +kernel⟩
theorem witness_StepKeepsHaltedBlank :
    halted8.HaltedStaysBlank ∧ halted8.mode = .halted ∧ (nextOf (issue 0x23 0 0 0 5 halted8)).isSome = true :=
  ⟨fun _ => ⟨rfl, rfl, rfl, rfl⟩, rfl, by decide +kernel⟩
theorem witness_StepKeepsEventsComplete :
    td.WellSized ∧ td.EventsComplete ∧ (nextOf (issue 0x20 0 0 0 5 td)).isSome = true :=
  ⟨td_wellSized, ⟨[], rfl, by simp⟩, by decide +kernel⟩
theorem witness_StepKeepsActiveIsLastBlit :
    td.ActiveIsLastBlit ∧ (nextOf (issue 0x20 0 0 0 5 td)).isSome = true := ⟨rfl, by decide +kernel⟩
/-- The last byte of a buffer; both answers of the transport. -/
theorem witness_ResetLeavesTheStatedValues : 7 < cfgT8.nb ∧ t8.mode = .ready ∧ halted8.mode = .halted := by decide
theorem witness_ResetMeetsEveryInvariant : cfgT8.admitted = true ∧ Memory.wf [] = true := by decide
theorem witness_DrawLitAndUnlitWriteTheirBit :
    t16.WellSized ∧ t16.mode = .ready ∧ (15 : Word).toNat < t16.cfg.W ∧ (15 : Word).toNat < t16.cfg.H :=
  ⟨t16_wellSized, by decide⟩

end Sys2Proof.Tests
end

section
/-! SUPPORT. Which commands can touch memory, the clock and the transport (spec 00_scope.md section 4, R10). -/

namespace Sys2Proof.Machine

/-! ### What a command keeps when its body keeps it -/

/-- A part of the state that no refusal changes is kept by a command whose body keeps it. -/
theorem perform_keeps {α : Type} (f : State → α) {body : State → State} {s t : State}
    (hr : ∀ st, f (raise st s) = f s) (hb : f (body s) = f s) (h : perform body s = .next t) : f t = f s := by
  cases hm : s.mode with
  | halted =>
    rw [perform_halted hm] at h
    cases h
    exact hr _
  | ready =>
    rw [perform_ready hm] at h
    cases h
    exact hb

/-- A part of the state that no refusal changes is kept by a range check whose body keeps it. -/
theorem whenInRange_keeps {α : Type} (f : State → α) {c : Bool} {body : State → State} {s : State}
    (hr : ∀ st, f (raise st s) = f s) (hb : f (body s) = f s) : f (whenInRange c body s) = f s := by
  cases c with
  | false => rw [whenInRange_false rfl, hr]
  | true => rw [whenInRange_true rfl, hb]

/-! ### What a command does at another clock value, when its body does the same there -/

/-- The clock is not read by a command whose body does not read it. -/
theorem perform_at_now {body : State → State} {s t : State} {n : Word}
    (hb : body { s with now := n } = { body s with now := n }) (h : perform body s = .next t) :
    perform body { s with now := n } = .next { t with now := n } := by
  obtain rfl : whenReady body s = t := Host.Outcome.next.inj h
  refine congrArg Host.Outcome.next ?_
  obtain ⟨_, mode⟩ := s
  cases mode with
  | halted => rfl
  | ready => exact hb

/-- The clock is not read by a range check whose body does not read it. -/
theorem whenInRange_at_now {c : Bool} {body : State → State} {s : State} {n : Word}
    (hb : body { s with now := n } = { body s with now := n }) :
    whenInRange c body { s with now := n } = { whenInRange c body s with now := n } := by
  cases c with
  | false => rfl
  | true => exact hb

/-! ### The three frames of R10: the commands grouped by the shape of their body -/

/-- Only FILLPANELRAW changes memory. -/
theorem exec_mem {i : Instr} {s t : State} (hi : ∀ addr, i ≠ .fillpanelraw addr) (h : exec i s = .next t) :
    t.mem = s.mem := by
  have hr : ∀ st, (raise st s).mem = s.mem := fun _ => rfl
  cases i with
  | fillpanelraw addr => exact absurd rfl (hi addr)
  | drawpix888 | drawpix565 | getpix | fillzone888 | fillzone565 =>
    exact perform_keeps State.mem hr (whenInRange_keeps State.mem hr rfl) h
  | update => exact perform_keeps State.mem hr (by dsimp only; split <;> rfl) h
  | cvtmono888 | cvtmono565 | cvtgray888 | swap | copyfb | clear | setbrt | fillpal | fillpalchg | fillscr =>
    exact perform_keeps State.mem hr rfl h

/-- Only SWAP, UPDATE and CLEAR emit events. -/
theorem exec_events {i : Instr} {s t : State} (hs : i ≠ .swap) (hu : i ≠ .update) (hc : i ≠ .clear)
    (h : exec i s = .next t) : t.events = s.events := by
  have hr : ∀ st, (raise st s).events = s.events := fun _ => rfl
  cases i with
  | swap => exact absurd rfl hs
  | update => exact absurd rfl hu
  | clear => exact absurd rfl hc
  | drawpix888 | drawpix565 | getpix | fillzone888 | fillzone565 =>
    exact perform_keeps State.events hr (whenInRange_keeps State.events hr rfl) h
  | cvtmono888 | cvtmono565 | cvtgray888 | fillpanelraw | copyfb | setbrt | fillpal | fillpalchg | fillscr =>
    exact perform_keeps State.events hr rfl h

/-- Only UPDATE reads the clock. -/
theorem exec_at_now {i : Instr} {s t : State} (hu : i ≠ .update) (h : exec i s = .next t) (n : Word) :
    exec i { s with now := n } = .next { t with now := n } := by
  cases i with
  | update => exact absurd rfl hu
  | drawpix888 | drawpix565 | getpix | fillzone888 | fillzone565 =>
    exact perform_at_now (whenInRange_at_now rfl) h
  | cvtmono888 | cvtmono565 | cvtgray888 | fillpanelraw | swap | copyfb | clear | setbrt | fillpal | fillpalchg | fillscr =>
    exact perform_at_now rfl h

/-- Settles O51: each of R10's three sentences is a frame lemma over the commands. -/
theorem onlyNamedCommandsTouchMemoryClockTransport : Obligations.OnlyNamedCommandsTouchMemoryClockTransport := by
  intro i s t h
  refine ⟨fun hi a => ?_, fun hu n => exec_at_now hu h n, fun hs hu hc => exec_events hs hu hc h⟩
  rw [exec_mem hi h]

end Sys2Proof.Machine
end

section
/-! SUPPORT. Every step keeps the geometry admitted, the buffers at NB bytes and memory canonical (spec 10_state.md R26, R28, R29). -/

namespace Sys2Proof.Machine

theorem State.WellSized.hostStore {s : State} (hs : s.WellSized) (a : Word) (v : Byte) (rest : List HostMove) :
    (hostStore a v rest s).WellSized :=
  ⟨hs.cfg_admitted, hs.wb_length, hs.ab_length, memWrite_wf hs.mem_wf a v⟩

theorem State.WellSized.acceptCommand {s : State} (hs : s.WellSized) (now : Word) (rest : List HostMove) :
    (acceptCommand now rest s).WellSized :=
  ⟨hs.cfg_admitted, hs.wb_length, hs.ab_length, hs.mem_wf⟩

/-- Every effect of a command moves whole buffers, redraws one at its length, or writes memory byte by byte. -/
theorem Effect.wellSized {s t : State} (he : Effect s t) (hs : s.WellSized) : t.WellSized := by
  obtain ⟨hc, hwb, hab, hmem⟩ := hs
  cases he with
  | answered => exact ⟨hc, hwb, hab, hmem⟩
  | drawn wb _ hl => exact ⟨hc, hl.trans hwb, hab, hmem⟩
  | dithered addr => exact ⟨hc, (length_ditherPanel ..).trans hwb, hab, ditherPanel_wf hmem ..⟩
  | swapped => exact ⟨hc, hwb, hwb, hmem⟩
  | copied => exact ⟨hc, hab, hab, hmem⟩
  | refreshed => exact ⟨hc, hwb, hwb, hmem⟩
  | cleared => exact ⟨hc, List.length_replicate, hab, hmem⟩

/-- Settles O53: by the three things a step can do. -/
theorem stepKeepsWellSized : Obligations.StepKeepsWellSized := by
  intro s t hs h
  obtain ⟨_, rfl⟩ | ⟨a, v, rest, _, rfl⟩ | ⟨cmd, now, rest, _, he⟩ := step_effect h
  · exact hs
  · exact hs.hostStore a v rest
  · exact he.wellSized (hs.acceptCommand now rest)

end Sys2Proof.Machine
end

section
/-! SUPPORT. The pixel primitives by their arithmetic, and the pixel that lies at a bit of a buffer (spec 10_state.md R26, R27). -/

namespace Sys2Proof.Machine

/-- A byte with a bit put to `v` is the byte with that bit cleared plus `v * 2^k`. -/
theorem putBit_toNat (b : Byte) {k : Nat} (hk : k < 8) (v : Bool) :
    (putBit b k v).toNat = (putBit b k false).toNat + v.toNat * 2 ^ k := by
  cases v with
  | false => simp
  | true =>
    have hweight : (1#8 <<< k).toNat = 2 ^ k := by
      rw [← BitVec.twoPow_eq, BitVec.toNat_twoPow_of_lt hk]
    have hdisjoint : putBit b k false &&& 1#8 <<< k = 0#8 := by
      simp [putBit, BitVec.and_assoc]
    have hor : putBit b k true = putBit b k false ||| 1#8 <<< k := by
      refine BitVec.eq_of_getLsbD_eq fun j hj => ?_
      rw [BitVec.getLsbD_or, getLsbD_putBit _ _ hj, getLsbD_putBit _ _ hj, ← BitVec.twoPow_eq, BitVec.getLsbD_twoPow]
      by_cases h : j = k
      · simp [h, hk]
      · simp [h, Ne.symm h]
    rw [hor, ← BitVec.add_eq_or_of_and_eq_zero _ _ hdisjoint, BitVec.toNat_add_of_and_eq_zero hdisjoint, hweight]
    simp

/-- Putting the value that a bit has changes nothing. -/
theorem putBit_getLsbD (b : Byte) (k : Nat) : putBit b k (b.getLsbD k) = b := by
  refine BitVec.eq_of_getLsbD_eq fun j hj => ?_
  rw [getLsbD_putBit _ _ hj]
  split
  · next h => rw [h]
  · rfl

/-- Putting a bit takes its old weight away and adds its new one. -/
theorem putBit_toNat_eq_sub_add (b : Byte) {k : Nat} (hk : k < 8) (v : Bool) :
    (putBit b k v).toNat = b.toNat - (b.getLsbD k).toNat * 2 ^ k + v.toNat * 2 ^ k := by
  have hold := putBit_toNat b hk (b.getLsbD k)
  rw [putBit_getLsbD] at hold
  rw [hold, Nat.add_sub_cancel, putBit_toNat b hk v]

/-- The byte that the write primitive changes. -/
theorem getD_setPixel_same {cfg : Config} {buf : PixelBuffer} {x y : Nat} (v : Bool) (h : pixelIdx cfg x y < buf.length) :
    (setPixel cfg buf x y v).getD (pixelIdx cfg x y) 0 = putBit (buf.getD (pixelIdx cfg x y) 0) (pixelPos y) v := by
  simp [setPixel, List.getD_eq_getElem?_getD, h]

/-- Every other byte stays. -/
theorem getD_setPixel_other (cfg : Config) (buf : PixelBuffer) {x y i : Nat} (v : Bool) (h : i ≠ pixelIdx cfg x y) :
    (setPixel cfg buf x y v).getD i 0 = buf.getD i 0 := by
  simp [setPixel, List.getD_eq_getElem?_getD, List.getElem?_set_ne h.symm]

/-- Settles O10: the read is a bit of a byte, the write puts one. -/
theorem pixelPrimitivesFollowTheirArithmetic : Obligations.PixelPrimitivesFollowTheirArithmetic := by
  intro cfg buf x y v h
  refine ⟨bit_toNat _ _, ?_, fun i hi => getD_setPixel_other cfg buf v hi, length_setPixel ..⟩
  have hbyte := congrArg BitVec.toNat (getD_setPixel_same v h)
  exact hbyte.trans (putBit_toNat_eq_sub_add _ (Nat.mod_lt _ (by omega)) v)

/-! ### The pixel at a bit of a buffer (10_state.md R26) -/

theorem pixelIdx_div_mod (cfg : Config) (i : Nat) {k : Nat} (hk : k < 8) :
    pixelIdx cfg (i % cfg.W) (8 * (i / cfg.W) + k) = i := by
  have hrow : (8 * (i / cfg.W) + k) / 8 = i / cfg.W := by omega
  rw [pixelIdx, hrow, Nat.mod_add_div']

theorem pixelPos_mul_add (q : Nat) {k : Nat} (hk : k < 8) : pixelPos (8 * q + k) = k := by
  unfold pixelPos; omega

/-- Settles O11: bit `k` of byte `i` is pixel `(i mod W, 8 * (i div W) + k)` and no other. -/
theorem everyBufferBitIsOnePixel : Obligations.EveryBufferBitIsOnePixel := by
  intro cfg hc
  obtain ⟨hW, _, h8, _⟩ := (Config.admitted_iff cfg).1 hc
  refine ⟨fun x y hx hy => ⟨pixelIdx_lt h8 hx hy, Nat.mod_lt _ (by omega)⟩, fun i k hi hk => ?_⟩
  have hidx := pixelIdx_div_mod cfg i hk
  have hpos := pixelPos_mul_add (i / cfg.W) hk
  have hx : i % cfg.W < cfg.W := Nat.mod_lt _ hW
  have hrow : i / cfg.W < cfg.H / 8 := Nat.div_lt_of_lt_mul (Config.nb_eq h8 ▸ hi)
  exact ⟨_, _, hx, by omega, hidx, hpos, fun x' y' hx' _ hidx' hpos' =>
    pixel_place_inj hx' hx (hidx'.trans hidx.symm) (hpos'.trans hpos.symm)⟩

end Sys2Proof.Machine
end

section
/-! SUPPORT. The configuration and MODE are kept by every step; which commands write LAST and AB (spec 10_state.md R23, R24, R29). -/

namespace Sys2Proof.Machine

theorem Effect.cfg_eq {s t : State} (he : Effect s t) : t.cfg = s.cfg := by
  cases he <;> rfl

theorem Effect.mode_eq {s t : State} (he : Effect s t) : t.mode = s.mode := by
  cases he <;> rfl

theorem step_keeps_cfg_mode {s t : State} (h : step s = .next t) : t.cfg = s.cfg ∧ t.mode = s.mode := by
  obtain ⟨_, rfl⟩ | ⟨a, v, rest, _, rfl⟩ | ⟨cmd, now, rest, _, he⟩ := step_effect h
  · exact ⟨rfl, rfl⟩
  · exact ⟨rfl, rfl⟩
  · exact ⟨he.cfg_eq, he.mode_eq⟩

/-- LAST is kept, or a refresh that is due sets it to the clock sample. -/
theorem Effect.last_cases {s t : State} (he : Effect s t) :
    t.last = s.last ∨ refreshDue s = true ∧ t.last = s.now := by
  cases he with
  | refreshed _ hd => exact .inr ⟨hd, rfl⟩
  | answered | drawn | dithered | swapped | copied | cleared => exact .inl rfl

/-- AB is kept, or takes the whole of WB. -/
theorem Effect.ab_cases {s t : State} (he : Effect s t) : t.ab = s.ab ∨ t.ab = s.wb := by
  cases he with
  | swapped | refreshed => exact .inr rfl
  | answered | drawn | dithered | copied | cleared => exact .inl rfl

/-- Only UPDATE changes LAST. -/
theorem exec_last {i : Instr} {s t : State} (hu : i ≠ .update) (h : exec i s = .next t) : t.last = s.last := by
  have hr : ∀ st, (raise st s).last = s.last := fun _ => rfl
  cases i with
  | update => exact absurd rfl hu
  | drawpix888 | drawpix565 | getpix | fillzone888 | fillzone565 =>
    exact perform_keeps State.last hr (whenInRange_keeps State.last hr rfl) h
  | cvtmono888 | cvtmono565 | cvtgray888 | fillpanelraw | swap | copyfb | clear | setbrt | fillpal | fillpalchg | fillscr =>
    exact perform_keeps State.last hr rfl h

/-- Only SWAP, and UPDATE when a refresh is due, change AB. -/
theorem exec_ab {i : Instr} {s t : State} (hs : i ≠ .swap) (hu : i = .update → refreshDue s ≠ true)
    (h : exec i s = .next t) : t.ab = s.ab := by
  have hr : ∀ st, (raise st s).ab = s.ab := fun _ => rfl
  cases i with
  | swap => exact absurd rfl hs
  | update => exact perform_keeps State.ab hr (by dsimp only; rw [if_neg (hu rfl)]; rfl) h
  | drawpix888 | drawpix565 | getpix | fillzone888 | fillzone565 =>
    exact perform_keeps State.ab hr (whenInRange_keeps State.ab hr rfl) h
  | cvtmono888 | cvtmono565 | cvtgray888 | fillpanelraw | copyfb | clear | setbrt | fillpal | fillpalchg | fillscr =>
    exact perform_keeps State.ab hr rfl h

/-- A part of the state that no refusal, no accepted command word and no host store changes is changed only by performing
a command. -/
theorem step_change_is_command {α : Type} (f : State → α) {s t : State} (hr : ∀ st s, f (raise st s) = f s)
    (ha : ∀ now rest, f (acceptCommand now rest s) = f s) (hst : ∀ a v rest, f (hostStore a v rest s) = f s)
    (h : step s = .next t) (hne : f t ≠ f s) :
    ∃ cmd now rest i, s.port = .issue cmd now :: rest ∧ decode cmd = .ok i ∧ exec i (acceptCommand now rest s) = .next t := by
  obtain ⟨_, ⟨_, rfl⟩ | ⟨a, v, rest, _, rfl⟩ | hcmd | ⟨cmd, now, rest, e, _, _, rfl⟩⟩ := step_cases h
  · exact absurd rfl hne
  · exact absurd (hst a v rest) hne
  · exact hcmd
  · have hill : f (illegalCommand (acceptCommand now rest s)) = f (acceptCommand now rest s) :=
      perform_keeps (body := raise .illegal) f (fun st => hr st _) (hr _ _) rfl
    exact absurd (hill.trans (ha now rest)) hne

/-- The throttle compare of an accepted command, from the clock sample that came with it (42_framebuffer_manager.md R124). -/
theorem refreshDue_acceptCommand (now : Word) (rest : List HostMove) (s : State) :
    refreshDue (acceptCommand now rest s) = true ↔ 33 ≤ (now - s.last).toNat :=
  decide_eq_true_iff

theorem step_last_writer {s t : State} (h : step s = .next t) (hne : t.last ≠ s.last) :
    ∃ cmd now rest, s.port = .issue cmd now :: rest ∧ decode cmd = .ok .update ∧ 33 ≤ (now - s.last).toNat ∧ t.last = now := by
  obtain ⟨cmd, now, rest, i, hp, hd, he⟩ :=
    step_change_is_command State.last (fun _ _ => rfl) (fun _ _ => rfl) (fun _ _ _ => rfl) h hne
  obtain rfl : i = .update := by
    by_contra hi
    exact hne ((exec_last hi he).trans (acceptCommand_last now rest s))
  obtain hkept | ⟨hdue, hlast⟩ := (exec_next_effect he).last_cases
  · exact absurd hkept hne
  · exact ⟨cmd, now, rest, hp, hd, (refreshDue_acceptCommand now rest s).1 hdue, hlast⟩

theorem step_ab_writer {s t : State} (h : step s = .next t) (hne : t.ab ≠ s.ab) :
    ∃ cmd now rest, s.port = .issue cmd now :: rest ∧ t.ab = s.wb ∧
      (decode cmd = .ok .swap ∨ decode cmd = .ok .update ∧ 33 ≤ (now - s.last).toNat) := by
  obtain ⟨cmd, now, rest, i, hp, hd, he⟩ :=
    step_change_is_command State.ab (fun _ _ => rfl) (fun _ _ => rfl) (fun _ _ _ => rfl) h hne
  refine ⟨cmd, now, rest, hp, (exec_next_effect he).ab_cases.resolve_left hne, ?_⟩
  by_cases hs : i = .swap
  · exact .inl (hs ▸ hd)
  · obtain ⟨rfl, hdue⟩ : i = .update ∧ refreshDue (acceptCommand now rest s) = true := by
      by_contra hn
      exact hne ((exec_ab hs (not_and.1 hn) he).trans (acceptCommand_ab now rest s))
    exact .inr ⟨hd, (refreshDue_acceptCommand now rest s).1 hdue⟩

/-- Settles O52: the frame of every step, then the writers of LAST and of AB. -/
theorem modeLastAndActiveHaveTheirWriters : Obligations.ModeLastAndActiveHaveTheirWriters := by
  intro s t h
  obtain ⟨hcfg, hmode⟩ := step_keeps_cfg_mode h
  exact ⟨hcfg, hmode, step_last_writer h, step_ab_writer h⟩

end Sys2Proof.Machine
end

section
/-! SUPPORT. External memory: the byte order of pixels, a host store, what FILLPANELRAW leaves and what the read-only fills read
(spec 20_memory.md R41, R42, R45, R47, R59). -/

namespace Sys2Proof.Machine

/-- Settles O38: the read primitives unfolded, the 16-bit word by its two bytes. -/
theorem memoryPixelsAreReadInByteOrder : Obligations.MemoryPixelsAreReadInByteOrder :=
  ⟨ea_toNat, fun m a => ⟨rfl, rd565_toNat m a⟩⟩

/-! ### A host store -/

theorem step_of_store {s : State} {a : Word} {v : Byte} {rest : List HostMove} (hc : s.cfg.admitted = true)
    (hp : s.port = .store a v :: rest) : step s = .next (hostStore a v rest s) := by
  unfold step
  rw [if_pos hc, hp]

/-- Settles O39: the step is the host's store, one write of a canonical memory. -/
theorem hostStoreIsReadBack : Obligations.HostStoreIsReadBack := by
  intro s a v rest hc hm hp
  exact ⟨memWrite s.mem a v, step_of_store hc hp, memWrite_wf hm a v, memRead_memWrite_same hm a v,
    fun b hb => memRead_memWrite_other s.mem v hb⟩

/-! ### The frame of FILLPANELRAW -/

/-- Every byte of the scratch buffer after the first three is one of a pixel other than the first (20_memory.md R52). -/
theorem scratch_byte_of_pixel (cfg : Config) (base : Word) {off : Nat} (h3 : 3 ≤ off) (hlt : off < 3 * (cfg.W * cfg.H)) :
    ∃ x y i, x < cfg.W ∧ y < cfg.H ∧ ¬(x = 0 ∧ y = 0) ∧ i < 3 ∧ ea base off = ea (panelEa cfg base x y) i := by
  have hpix : off / 3 < cfg.W * cfg.H := Nat.div_lt_of_lt_mul hlt
  have hW : 0 < cfg.W := Nat.pos_of_lt_mul_right hpix
  have hsplit : off / 3 / cfg.W * cfg.W + off / 3 % cfg.W = off / 3 := Nat.div_add_mod' ..
  refine ⟨off / 3 % cfg.W, off / 3 / cfg.W, off % 3, Nat.mod_lt _ hW, Nat.div_lt_of_lt_mul hpix, ?_, Nat.mod_lt _ (by omega), ?_⟩
  · rintro ⟨hx, hy⟩
    rw [hx, hy] at hsplit
    omega
  · rw [panelEa, ea_ea, hsplit, Nat.div_add_mod]

/-- Settles O16: the pass writes only to bytes of pixels after the first. -/
theorem fillPanelRawKeepsOtherMemory : Obligations.FillPanelRawKeepsOtherMemory := by
  intro addr s hm
  refine ⟨_, perform_ready hm, rfl, fun a ha => memRead_ditherPanel_other fun off h3 hlt => ?_⟩
  obtain ⟨x, y, i, hx, hy, hne, hi, e⟩ := scratch_byte_of_pixel s.cfg addr h3 hlt
  exact e ▸ ha x y hx hy hne i hi

/-! ### What the fills read: their buffers and nothing else -/

theorem zone_offset_lt {cfg : Config} {zx zy : Nat} (hx : zx < cfg.ZW) (hy : zy < cfg.ZH) :
    zy * cfg.ZW + zx < cfg.ZW * cfg.ZH :=
  panel_offset_lt (cfg := { cfg with W := cfg.ZW, H := cfg.ZH }) hx hy

theorem rd565_congr {m m' : Memory} {a : Word} (h : ∀ i, i < 2 → memRead m (ea a i) = memRead m' (ea a i)) :
    rd565 m a = rd565 m' a := by
  have h0 := h 0 (by omega)
  rw [ea_zero] at h0
  rw [rd565, rd565, h0, h 1 (by omega)]

theorem indexAt_congr {s : State} {m : Memory} {addr : Word}
    (h : ∀ off, off < s.cfg.W * s.cfg.H → memRead m (ea addr off) = memRead s.mem (ea addr off))
    {x y : Nat} (hx : x < s.cfg.W) (hy : y < s.cfg.H) : indexAt { s with mem := m } addr x y = indexAt s addr x y :=
  h _ (panel_offset_lt hx hy)

theorem paletteLit_congr {s : State} {m : Memory} {pal : Word} {i : Byte}
    (h : ∀ j, j < 3 → memRead m (ea pal (3 * i.toNat + j)) = memRead s.mem (ea pal (3 * i.toNat + j))) :
    paletteLit { s with mem := m } pal i = paletteLit s pal i :=
  congrArg toMono888 (rd888_congr fun j hj => by rw [paletteEa, ea_ea]; exact h j hj)

theorem flagged_congr {s : State} {m : Memory} {flg : Word} {i : Byte}
    (h : memRead m (ea flg i.toNat) = memRead s.mem (ea flg i.toNat)) :
    flagged { s with mem := m } flg i = flagged s flg i :=
  congrArg (· != 0) h

/-- Painting depends on the colours of the rectangle's own pixels only. -/
theorem paint_congr (cfg : Config) (x0 y0 : Nat) {w h : Nat} {f g : Nat → Nat → Option Bool} (buf : PixelBuffer)
    (hfg : ∀ x y, x < w → y < h → f x y = g x y) : paint cfg x0 y0 w h f buf = paint cfg x0 y0 w h g buf := by
  rw [paint_eq, paint_eq]
  refine List.foldl_ext _ _ _ fun acc p hp => ?_
  obtain ⟨hx, hy⟩ := mem_raster.1 hp
  rw [hfg p.1 p.2 hx hy]

/-- Bodies that make the same state but for memory are commands that do, HALTED or not. -/
theorem perform_at_mem {body body' : State → State} {s : State} {m : Memory}
    (hb : body' { s with mem := m } = { body s with mem := m }) :
    ∃ t, perform body s = .next t ∧ perform body' { s with mem := m } = .next { t with mem := m } := by
  refine ⟨whenReady body s, rfl, congrArg Host.Outcome.next ?_⟩
  obtain ⟨_, mode⟩ := s
  cases mode with
  | halted => rfl
  | ready => exact hb

theorem whenInRange_at_mem {c : Bool} {body body' : State → State} {s : State} {m : Memory}
    (hb : body' { s with mem := m } = { body s with mem := m }) :
    whenInRange c body' { s with mem := m } = { whenInRange c body s with mem := m } := by
  cases c with
  | false => rfl
  | true => exact hb

/-- A zone fill does to another memory's state what it does here, if its colours agree on the zone. -/
theorem fillZone_at_mem (idx : Word) {s : State} (m : Memory) {f g : Nat → Nat → Bool}
    (hfg : ∀ zx zy, zx < s.cfg.ZW → zy < s.cfg.ZH → f zx zy = g zx zy) :
    fillZone idx f { s with mem := m } = { fillZone idx g s with mem := m } := by
  refine whenInRange_at_mem (congrArg (fun wb => respond .ok 0 { s with mem := m, wb := wb }) ?_)
  exact paint_congr s.cfg _ _ s.wb fun zx zy hx hy => congrArg some (hfg zx zy hx hy)

/-- A panel fill does to another memory's state what it does here, if its colours agree on the panel. -/
theorem fillPanel_at_mem {s : State} (m : Memory) {f g : Nat → Nat → Option Bool}
    (hfg : ∀ x y, x < s.cfg.W → y < s.cfg.H → f x y = g x y) :
    fillPanel f { s with mem := m } = { fillPanel g s with mem := m } :=
  congrArg (fun wb => respond .ok 0 { s with mem := m, wb := wb }) (paint_congr s.cfg 0 0 s.wb hfg)

section
variable {s : State} {m : Memory} {idx addr pal flg : Word}

theorem fillzone888_reads_zone_image
    (h : ∀ off, off < 3 * (s.cfg.ZW * s.cfg.ZH) → memRead m (ea addr off) = memRead s.mem (ea addr off)) :
    ∃ t, exec (.fillzone888 idx addr) s = .next t ∧
      exec (.fillzone888 idx addr) { s with mem := m } = .next { t with mem := m } := by
  refine perform_at_mem (fillZone_at_mem idx m fun zx zy hx hy => congrArg toMono888 (rd888_congr fun i hi => ?_))
  have hoff := zone_offset_lt hx hy
  rw [zone888Ea, ea_ea]
  exact h (3 * (zy * s.cfg.ZW + zx) + i) (by omega)

theorem fillzone565_reads_zone_image
    (h : ∀ off, off < 2 * (s.cfg.ZW * s.cfg.ZH) → memRead m (ea addr off) = memRead s.mem (ea addr off)) :
    ∃ t, exec (.fillzone565 idx addr) s = .next t ∧
      exec (.fillzone565 idx addr) { s with mem := m } = .next { t with mem := m } := by
  refine perform_at_mem (fillZone_at_mem idx m fun zx zy hx hy => congrArg toMono565 (rd565_congr fun i hi => ?_))
  have hoff := zone_offset_lt hx hy
  rw [zone565Ea, ea_ea]
  exact h (2 * (zy * s.cfg.ZW + zx) + i) (by omega)

theorem fillpal_reads_selected_entries
    (hidx : ∀ off, off < s.cfg.W * s.cfg.H → memRead m (ea addr off) = memRead s.mem (ea addr off))
    (hpal : ∀ off, off < s.cfg.W * s.cfg.H → ∀ j, j < 3 →
      memRead m (ea pal (3 * (memRead s.mem (ea addr off)).toNat + j)) =
        memRead s.mem (ea pal (3 * (memRead s.mem (ea addr off)).toNat + j))) :
    ∃ t, exec (.fillpal addr pal) s = .next t ∧
      exec (.fillpal addr pal) { s with mem := m } = .next { t with mem := m } := by
  refine perform_at_mem (fillPanel_at_mem m fun x y hx hy => congrArg some ?_)
  rw [indexAt_congr hidx hx hy]
  exact paletteLit_congr (hpal _ (panel_offset_lt hx hy))

theorem fillpalchg_reads_flagged_entries
    (hidx : ∀ off, off < s.cfg.W * s.cfg.H → memRead m (ea addr off) = memRead s.mem (ea addr off))
    (hflg : ∀ off, off < s.cfg.W * s.cfg.H → memRead m (ea flg (memRead s.mem (ea addr off)).toNat) =
      memRead s.mem (ea flg (memRead s.mem (ea addr off)).toNat))
    (hpal : ∀ off, off < s.cfg.W * s.cfg.H → memRead s.mem (ea flg (memRead s.mem (ea addr off)).toNat) ≠ 0 → ∀ j, j < 3 →
      memRead m (ea pal (3 * (memRead s.mem (ea addr off)).toNat + j)) =
        memRead s.mem (ea pal (3 * (memRead s.mem (ea addr off)).toNat + j))) :
    ∃ t, exec (.fillpalchg addr pal flg) s = .next t ∧
      exec (.fillpalchg addr pal flg) { s with mem := m } = .next { t with mem := m } := by
  refine perform_at_mem (fillPanel_at_mem m fun x y hx hy => ?_)
  have hoff := panel_offset_lt hx hy
  rw [indexAt_congr hidx hx hy, flagged_congr (i := indexAt s addr x y) (hflg _ hoff)]
  split
  · next hf => exact congrArg some (paletteLit_congr (hpal _ hoff (bne_iff_ne.1 hf)))
  · rfl

end

/-- Settles O37: each of the four fills by the bytes it reads. -/
theorem fillsReadOnlyTheirBuffers : Obligations.FillsReadOnlyTheirBuffers := fun _ _ _ _ _ _ =>
  ⟨fillzone888_reads_zone_image, fillzone565_reads_zone_image, fillpal_reads_selected_entries, fillpalchg_reads_flagged_entries⟩

end Sys2Proof.Machine
end

section
/-! SUPPORT. The command words: decoding undoes encoding, which words are illegal, how the rows of the opcode table relate, which
operand words a command ignores (spec 30_encoding.md R60 to R68). -/

namespace Sys2Proof.Machine

/-! ### Decoding an encoded command -/

theorem word888_and_reserved (c : Rgb) : word888 c &&& 0xFF000000 = 0 := (reserved_24 _).2 (word888_reserved c)

theorem word565_and_reserved (w : Half) : word565 w &&& 0xFFFF0000 = 0 := (reserved_16 _).2 (word565_reserved w)

theorem wordLevel_and_reserved (l : Byte) : wordLevel l &&& 0xFFFFFF00 = 0 := (reserved_8 _).2 (wordLevel_reserved l)

/-- By the packed operand: a colour or a level passes its reserved-bit check and is unpacked again; whole words come back as
they are. -/
theorem toOption_decode_encode (i : Instr) : (decode (encode i)).toOption = some i := by
  cases i with
  | cvtmono888 k | cvtgray888 k | drawpix888 _ _ k | fillscr k =>
    rw [encode, decode_words]
    exact (if_pos (word888_and_reserved k)).trans (by rw [colour888_word888])
  | cvtmono565 w | drawpix565 _ _ w =>
    rw [encode, decode_words]
    exact (if_pos (word565_and_reserved w)).trans (by rw [colour565_word565])
  | setbrt l =>
    rw [encode, decode_words]
    exact (if_pos (wordLevel_and_reserved l)).trans (by rw [levelOf_wordLevel])
  | getpix | fillpanelraw | swap | copyfb | update | clear | fillzone888 | fillzone565 | fillpal | fillpalchg =>
    rw [encode, decode_words]
    rfl

/-- Settles O40, by the command's packed operand. -/
theorem decodeOfEncodeIsTheCommand : Obligations.DecodeOfEncodeIsTheCommand := fun i =>
  toOption_decode_eq_some.1 (toOption_decode_encode i)

/-! ### The legal words of the prose are those that decode -/

/-- The opcode of word 0 is its low byte (30_encoding.md R61). -/
theorem formatOfOpcode_word0 {w0 : Word} {n : Nat} (h : w0.toNat = n) :
    formatOfOpcode (opcodeOf w0) = formatOfOpcode (BitVec.ofNat 8 n) := by
  have hop : opcodeOf w0 = BitVec.ofNat 8 n := by
    subst h
    exact BitVec.eq_of_toNat_eq (by simp [opcodeOf])
  rw [hop]

theorem wellFormedCommand_cmdOf (w0 a b c : Word) :
    wellFormedCommand (cmdOf w0 a b c) = (w0.extractLsb' 8 24 == 0 &&
      (formatOfOpcode (opcodeOf w0)).any (reservedBitsZero · (cmdOf w0 a b c))) := by
  rw [wellFormedCommand, word0HighZero, cmdW0_cmdOf]
  cases formatOfOpcode (opcodeOf w0) <;> rfl

/-- The mask check of a row is the field check of its format (30_encoding.md R62, R66). -/
theorem isSome_reserved_gate {x m : Word} {k n : Nat} (h : x &&& m = 0 ↔ x.extractLsb' k n = 0) (i : Instr) :
    (if x &&& m = 0 then some i else none).isSome = (x.extractLsb' k n == 0) := by
  by_cases hx : x &&& m = 0
  · rw [if_pos hx, h.1 hx, beq_self_eq_true, Option.isSome_some]
  · rw [if_neg hx, beq_false_of_ne fun he => hx (h.2 he), Option.isSome_none]

/-- Row by row: a known opcode leaves the reserved operand bits of its format to check; any other word 0 is illegal. -/
theorem wordsDecode_isSome (w0 a b c : Word) : (wordsDecode w0 a b c).isSome = wellFormedCommand (cmdOf w0 a b c) := by
  have legal_eq {n : Nat} {f : Format} (hn : w0.toNat = n) (h8 : n < 256)
      (hf : formatOfOpcode (BitVec.ofNat 8 n) = some f) :
      wellFormedCommand (cmdOf w0 a b c) = reservedBitsZero f (cmdOf w0 a b c) := by
    rw [wellFormedCommand_cmdOf, word0_high_zero w0 (hn ▸ h8), formatOfOpcode_word0 hn, hf]
    rfl
  unfold wordsDecode
  split
  -- the formats without reserved bits: N, XY, M1, ZM, M2, M3
  case h_6 | h_7 | h_8 | h_9 | h_10 | h_11 | h_13 | h_14 | h_15 | h_16 =>
    next h => exact (legal_eq h (by decide) rfl).symm
  -- K: CVTMONO888, CVTGRAY888, FILLSCR
  case h_1 | h_3 | h_17 =>
    next h =>
      rw [legal_eq h (by decide) rfl, reservedBitsZero, cmdA_cmdOf]
      exact isSome_reserved_gate (reserved_24 a) _
  -- K5: CVTMONO565
  case h_2 =>
    next h =>
      rw [legal_eq h (by decide) rfl, reservedBitsZero, cmdA_cmdOf]
      exact isSome_reserved_gate (reserved_16 a) _
  -- L: SETBRT
  case h_12 =>
    next h =>
      rw [legal_eq h (by decide) rfl, reservedBitsZero, cmdA_cmdOf]
      exact isSome_reserved_gate (reserved_8 a) _
  -- P8: DRAWPIX888
  case h_4 =>
    next h =>
      rw [legal_eq h (by decide) rfl, reservedBitsZero, cmdC_cmdOf]
      exact isSome_reserved_gate (reserved_24 c) _
  -- P5: DRAWPIX565
  case h_5 =>
    next h =>
      rw [legal_eq h (by decide) rfl, reservedBitsZero, cmdC_cmdOf]
      exact isSome_reserved_gate (reserved_16 c) _
  -- no row has this word 0: its high bits are set, or its opcode is unknown
  case h_18 =>
    rw [wellFormedCommand_cmdOf]
    by_cases h0 : w0.extractLsb' 8 24 = 0
    · have hf : formatOfOpcode (opcodeOf w0) = none := by
        simp only [formatOfOpcode, ← opcode_of_word0 w0 h0]
      rw [hf, h0]
      rfl
    · rw [beq_false_of_ne h0]
      rfl

theorem decode_ok_iff_wellFormed (cmd : Command) : (∃ i, decode cmd = .ok i) ↔ wellFormedCommand cmd = true := by
  have hwords := wordsDecode_isSome (cmdW0 cmd) (cmdA cmd) (cmdB cmd) (cmdC cmd)
  rw [← decode_words, cmdOf_words] at hwords
  rw [← hwords, Option.isSome_iff_exists]
  simp only [toOption_decode_eq_some]

/-! ### The rows of the opcode table -/

theorem decode_ok_iff_row_matches (cmd : Command) :
    (∃ i, decode cmd = .ok i) ↔ ∃ row ∈ opcodeTable, cmd &&& row.mask = row.matchBits := by
  have hfind := List.find?_isSome (xs := opcodeTable) (p := (·.selects cmd))
  simp only [Row.selects, beq_iff_eq] at hfind
  rw [← hfind, decode]
  simp only [Row.selects]
  cases opcodeTable.find? _ <;> simp

/-- Settles O41: a row matches, a word decodes and a word is legal are three names of one thing. -/
theorem illegalWordsAreThoseOfTheProse : Obligations.IllegalWordsAreThoseOfTheProse := by
  intro cmd
  have hlegal : (∃ row ∈ opcodeTable, cmd &&& row.mask = row.matchBits) ↔ wellFormedCommand cmd = true :=
    (decode_ok_iff_row_matches cmd).symm.trans (decode_ok_iff_wellFormed cmd)
  refine ⟨?_, decode_ok_iff_wellFormed cmd⟩
  rw [← Bool.not_eq_true, ← hlegal]
  simp only [not_exists, not_and, ne_eq]

theorem cmdW0_and (x y : Command) : cmdW0 (x &&& y) = cmdW0 x &&& cmdW0 y := BitVec.extractLsb'_and ..

/-- Every row of the table compares the whole of word 0 (30_encoding.md R66). -/
theorem cmdW0_of_row_matches {row : Row} (hrow : row ∈ opcodeTable) {cmd : Command}
    (h : cmd &&& row.mask = row.matchBits) : cmdW0 cmd = cmdW0 row.matchBits := by
  have hmask : ∀ row ∈ opcodeTable, cmdW0 row.mask = BitVec.allOnes 32 := by decide
  rw [← h, cmdW0_and, hmask row hrow, BitVec.and_allOnes]

theorem opcodeTable_word0_distinct : opcodeTable.Pairwise fun r r' => cmdW0 r.matchBits ≠ cmdW0 r'.matchBits := by
  decide

/-- Settles O42: two rows that match one word would have the same word 0. -/
theorem opcodeRowsNeverOverlap : Obligations.OpcodeRowsNeverOverlap :=
  ⟨rfl, opcodeTable_word0_distinct.imp_of_mem fun hr hr' hne _ ⟨h, h'⟩ =>
    hne ((cmdW0_of_row_matches hr h).symm.trans (cmdW0_of_row_matches hr' h'))⟩

/-! ### Unused operand words -/

/-- Row by row: the rows of a format read no operand word but those that it uses. -/
theorem wordsDecode_congr {w0 a b c a' b' c' : Word} {f : Format} (hf : formatOfOpcode (opcodeOf w0) = some f)
    (ha : f ≠ .N → a' = a) (hb : f = .P8 ∨ f = .P5 ∨ f = .XY ∨ f = .ZM ∨ f = .M2 ∨ f = .M3 → b' = b)
    (hc : f = .P8 ∨ f = .P5 ∨ f = .M3 → c' = c) : wordsDecode w0 a' b' c' = wordsDecode w0 a b c := by
  have format_eq {n : Nat} {g : Format} (hn : w0.toNat = n) (hg : formatOfOpcode (BitVec.ofNat 8 n) = some g) : f = g :=
    Option.some.inj (hf.symm.trans ((formatOfOpcode_word0 hn).trans hg))
  unfold wordsDecode
  split
  -- N, and the words that no row has as word 0
  case h_8 | h_9 | h_10 | h_11 | h_18 => rfl
  -- A alone: K, K5, M1, L
  case h_1 | h_2 | h_3 | h_7 | h_12 | h_17 =>
    next h =>
      obtain rfl := format_eq h rfl
      rw [ha (by decide)]
  -- A and B: XY, ZM, M2
  case h_6 | h_13 | h_14 | h_15 =>
    next h =>
      obtain rfl := format_eq h rfl
      rw [ha (by decide), hb (by decide)]
  -- all three: P8, P5, M3
  case h_4 | h_5 | h_16 =>
    next h =>
      obtain rfl := format_eq h rfl
      rw [ha (by decide), hb (by decide), hc (by decide)]

/-- Settles O43, by the rows of each format. -/
theorem unusedOperandWordsAreIgnored : Obligations.UnusedOperandWordsAreIgnored := by
  intro w0 a b c a' b' c' f hf ha hb hc
  rw [decode_words, decode_words, wordsDecode_congr hf ha hb hc]

/-- Settles O44: each of the eight words is decoded by computation. -/
theorem sampleWordsDecode : Obligations.SampleWordsDecode :=
  ⟨rfl, rfl, rfl, rfl, rfl, rfl, rfl, rfl⟩

end Sys2Proof.Machine
end

section
/-! SUPPORT. The step on a command that decodes, and the host-side expansions of a single pixel (spec 30_encoding.md R72, R74). -/

namespace Sys2Proof.Machine

theorem step_of_decoded {s : State} {cmd : Command} {now : Word} {rest : List HostMove} {i : Instr}
    (hc : s.cfg.admitted = true) (hp : s.port = .issue cmd now :: rest) (hd : decode cmd = .ok i) :
    step s = exec i (acceptCommand now rest s) := by
  unfold step
  rw [if_pos hc, hp]
  dsimp only
  rw [hd]

/-- Settles O45: the command's arm of the step. -/
theorem stepRunsTheDecodedCommand : Obligations.StepRunsTheDecodedCommand := fun _ _ _ _ _ => step_of_decoded

/-- Inside the panel DRAWPIX888 leaves its pixel at the converted colour (40_color_reducer.md R89). -/
theorem exec_drawpix888_pixel {s : State} {x y : Word} (c : Rgb) (hs : s.WellSized) (hm : s.mode = .ready)
    (hx : x.toNat < s.cfg.W) (hy : y.toNat < s.cfg.H) :
    ∃ t, exec (.drawpix888 x y c) s = .next t ∧ pixel s.cfg t.wb x.toNat y.toNat = toMono888 c := by
  obtain ⟨wb, ht, _, hpix, _⟩ := (drawPixel_spec (v := toMono888 c) hs).1 ⟨hx, hy⟩
  exact ⟨_, (perform_ready hm).trans (congrArg Host.Outcome.next ht), hpix⟩

theorem toMono888_white : toMono888 { r := 255, g := 255, b := 255 } = true := by decide

theorem toMono888_black : toMono888 { r := 0, g := 0, b := 0 } = false := by decide

/-- Settles O59: DRAWLIT draws white, which converts to lit, and DRAWUNLIT black, which converts to unlit. -/
theorem drawLitAndUnlitWriteTheirBit : Obligations.DrawLitAndUnlitWriteTheirBit := by
  intro x y s hs hm hx hy
  have hlit := exec_drawpix888_pixel { r := 255, g := 255, b := 255 } hs hm hx hy
  have hunlit := exec_drawpix888_pixel { r := 0, g := 0, b := 0 } hs hm hx hy
  rw [toMono888_white] at hlit
  rw [toMono888_black] at hunlit
  exact ⟨hlit, hunlit⟩

end Sys2Proof.Machine
end

section
/-! SUPPORT. The conversion commands by the arithmetic of the weighted sum (spec 40_color_reducer.md R80 to R88). -/

namespace Sys2Proof.Machine

theorem bitData_decide (p : Prop) [Decidable p] : bitData (decide p) = if p then 1 else 0 := by
  simp only [bitData, decide_eq_true_eq]

theorem exec_cvtmono888 {s : State} (c : Rgb) (hm : s.mode = .ready) :
    exec (.cvtmono888 c) s = .next (respond .ok (bitData (toMono888 c)) s) := perform_ready hm

theorem exec_cvtmono565 {s : State} (w : Half) (hm : s.mode = .ready) :
    exec (.cvtmono565 w) s = .next (respond .ok (bitData (toMono565 w)) s) := perform_ready hm

theorem exec_cvtgray888 {s : State} (c : Rgb) (hm : s.mode = .ready) :
    exec (.cvtgray888 c) s = .next (respond .ok (BitVec.ofNat 8 (toGray888 c)) s) := perform_ready hm

/-- Settles O1: the answer is the bit of a decided compare. -/
theorem cvtMono888AnswersThreshold : Obligations.CvtMono888AnswersThreshold := by
  intro c s hm
  rw [exec_cvtmono888 c hm, toMono888, bitData_decide]
  rfl

/-- Settles O2: as O1, the compare written by the fields of the word. -/
theorem cvtMono565AnswersWeightedFields : Obligations.CvtMono565AnswersWeightedFields := by
  intro w s hm
  rw [exec_cvtmono565 w hm, toMono565_eq, bitData_decide]
  rfl

/-- Settles O3: the sum is at most 255000, so its thousandth fits the data byte. -/
theorem cvtGray888AnswersTruncatedLuminance : Obligations.CvtGray888AnswersTruncatedLuminance := fun c _ hm =>
  ⟨toGray888_le c, exec_cvtgray888 c hm⟩

/-- Settles O4: each maximum is that of a field of 5 or 6 bits, shifted. -/
theorem unpack565ShiftsWithoutFill : Obligations.Unpack565ShiftsWithoutFill := by
  intro w
  have hw := w.isLt
  rw [unpack565_r, unpack565_g, unpack565_b]
  refine ⟨rfl, rfl, rfl, ?_, ?_, ?_⟩ <;> omega

/-- The grey threshold and the lit threshold are one: `128 ≤ S div 1000` says `128000 ≤ S` (40_color_reducer.md R85). -/
theorem le_toGray888_iff_toMono888 (c : Rgb) : 128 ≤ toGray888 c ↔ toMono888 c = true := by
  rw [toMono888_iff, toGray888, Nat.le_div_iff_mul_le (by decide)]

/-- Settles O5: the two thresholds are one, and the weights sum to 1000. -/
theorem greyAgreesWithThreshold : Obligations.GreyAgreesWithThreshold :=
  ⟨le_toGray888_iff_toMono888, toGray888_uniform⟩

end Sys2Proof.Machine
end

section
/-! SUPPORT. The pixel commands: what a draw writes, what a read answers, and a read after a draw (spec 40_color_reducer.md R89 to
R91, 10_state.md R27). -/

namespace Sys2Proof.Machine

theorem inPanel_iff (cfg : Config) (x y : Word) : inPanel cfg x y = true ↔ x.toNat < cfg.W ∧ y.toNat < cfg.H := by
  simp [inPanel]

theorem exec_drawpix888 {s : State} (x y : Word) (c : Rgb) (hm : s.mode = .ready) :
    exec (.drawpix888 x y c) s = .next (drawPixel x y (toMono888 c) s) := perform_ready hm

theorem exec_drawpix565 {s : State} (x y : Word) (w : Half) (hm : s.mode = .ready) :
    exec (.drawpix565 x y w) s = .next (drawPixel x y (toMono565 w) s) := perform_ready hm

theorem exec_getpix_inside {s : State} {x y : Word} (hm : s.mode = .ready)
    (hxy : x.toNat < s.cfg.W ∧ y.toNat < s.cfg.H) :
    exec (.getpix x y) s = .next (respond .ok (bitData (pixel s.cfg s.wb x.toNat y.toNat)) s) :=
  (perform_ready hm).trans (congrArg _ (whenInRange_true ((inPanel_iff ..).2 hxy)))

theorem exec_getpix_outside {s : State} {x y : Word} (hm : s.mode = .ready)
    (hxy : ¬(x.toNat < s.cfg.W ∧ y.toNat < s.cfg.H)) : exec (.getpix x y) s = .next (raise .range s) :=
  (perform_ready hm).trans (congrArg _ (whenInRange_false (Bool.eq_false_iff.2 (mt (inPanel_iff ..).1 hxy))))

/-- Settles O6: DRAWPIX888 is the drawing of one pixel in the converted colour. -/
theorem drawPix888WritesExactlyOnePixel : Obligations.DrawPix888WritesExactlyOnePixel := by
  intro x y c s hs hm
  simp only [exec_drawpix888 x y c hm, Host.Outcome.next.injEq]
  exact drawPixel_spec hs

/-- Settles O7: as O6, the threshold written by the fields of the word. -/
theorem drawPix565WritesExactlyOnePixel : Obligations.DrawPix565WritesExactlyOnePixel := by
  intro x y w s hs hm
  simp only [exec_drawpix565 x y w hm, toMono565_eq, Host.Outcome.next.injEq]
  exact drawPixel_spec hs

theorem bitData_eq_ofNat (v : Bool) : bitData v = BitVec.ofNat 8 v.toNat := by
  cases v <;> rfl

/-- Settles O8: the answer is a bit of a byte, taken by division. -/
theorem getPixAnswersWorkingBit : Obligations.GetPixAnswersWorkingBit := by
  intro x y s hm
  refine ⟨fun hxy => ?_, exec_getpix_outside hm⟩
  rw [exec_getpix_inside hm hxy, bitData_eq_ofNat, pixel, bit_toNat]
  rfl

/-- A pixel that was drawn reads back as what was drawn (95_test_vectors.md S1). -/
theorem exec_getpix_drawPixel {s : State} {x y : Word} (v : Bool) (hs : s.WellSized) (hm : s.mode = .ready)
    (hxy : x.toNat < s.cfg.W ∧ y.toNat < s.cfg.H) :
    ∃ u, exec (.getpix x y) (drawPixel x y v s) = .next u ∧
      u.responses = s.responses ++ [{ status := .ok, data := 0 }, { status := .ok, data := bitData v }] := by
  obtain ⟨wb, ht, _, hpix, _⟩ := (drawPixel_spec hs).1 hxy
  rw [ht]
  exact ⟨_, exec_getpix_inside hm hxy, by simp [hpix]⟩

/-- Settles O9: one round trip for both colour encodings. -/
theorem drawThenGetPixRoundTrips : Obligations.DrawThenGetPixRoundTrips := fun x y c w _ hs hm hx hy =>
  ⟨⟨_, (exec_getpix_drawPixel (toMono888 c) hs hm ⟨hx, hy⟩).imp fun _ hu => ⟨exec_drawpix888 x y c hm, hu⟩⟩,
    ⟨_, (exec_getpix_drawPixel (toMono565 w) hs hm ⟨hx, hy⟩).imp fun _ hu => ⟨exec_drawpix565 x y w hm, hu⟩⟩⟩

end Sys2Proof.Machine
end

section
/-! SUPPORT. The ditherer: the arithmetic of the share, the step at one pixel, the order of the pass, the old content of WB, uniform
panels (spec 41_ditherer.md R100 to R106). -/

namespace Sys2Proof.Machine

/-! ### The share of the error (41_ditherer.md R102) -/

theorem sub_share_towardZero (err w : Int) : err * w - 16 * share .towardZero err w = (err * w).tmod 16 :=
  (Int.tmod_def ..).symm

theorem sub_share_floor (err w : Int) : err * w - 16 * share .floor err w = (err * w).fmod 16 :=
  (Int.fmod_def ..).symm

/-- Settles O12: the remainder of each rule is the remainder of its division, whose sign and size are the library's. -/
theorem shareTruncatesTowardZero : Obligations.ShareTruncatesTowardZero := by
  simp only [Obligations.ShareTruncatesTowardZero, sub_share_towardZero, sub_share_floor]
  refine ⟨fun err w => ⟨fun h => ?_, fun h => ?_⟩, fun err w => ?_⟩
  · exact ⟨Int.tmod_nonneg 16 h, Int.tmod_lt_of_pos _ (by decide)⟩
  · have hneg : (err * w).tmod 16 = -(-(err * w)).tmod 16 := by rw [Int.neg_tmod, neg_neg]
    have hnonneg := Int.tmod_nonneg 16 (show 0 ≤ -(err * w) by omega)
    have hlt := Int.tmod_lt_of_pos (-(err * w)) (show (0 : Int) < 16 by decide)
    omega
  · exact ⟨Int.fmod_nonneg_of_pos _ (by decide), Int.fmod_lt_of_pos _ (by decide)⟩

theorem kernel_weight_bounds : ∀ k ∈ kernel, 0 ≤ k.2.2 ∧ k.2.2 ≤ 7 := by decide

/-- Settles O13: a product of error and weight lies in -882 .. 896, and O12 turns that into the bounds of its share. -/
theorem ditherErrorAndSharesAreBounded : Obligations.DitherErrorAndSharesAreBounded := by
  refine fun c => ⟨ditherErr_bounds c, fun k hk => ?_⟩
  obtain ⟨herr, herr'⟩ := ditherErr_bounds c
  obtain ⟨hw, hw'⟩ := kernel_weight_bounds k hk
  have hlow : -882 ≤ ditherErr c * k.2.2 := by nlinarith
  have hhigh : ditherErr c * k.2.2 ≤ 896 := by nlinarith
  obtain ⟨hpos, hneg⟩ := shareTruncatesTowardZero.1 (ditherErr c) k.2.2
  rcases le_total 0 (ditherErr c * k.2.2) with h | h
  · have := hpos h
    omega
  · have := hneg h
    omega

/-! ### The step at one pixel (41_ditherer.md R101, R103, R104) -/

theorem ditherErr_eq (c : Rgb) : ditherErr c = (toGray888 c : Int) - (if 128 < toGray888 c then 255 else 0) := by
  simp [ditherErr, ditherLit]

theorem diffuse_zero_err {cfg : Config} {base : Word} {x y : Nat} {m : Memory} (hm : Memory.wf m = true)
    (k : Int × Int × Int) : diffuse cfg base x y 0 m k = m := by
  unfold diffuse
  simp only [share_zero_err, addShare_zero, wr888_rd888 hm, ite_self]

theorem diffuse_foldl_zero_err {cfg : Config} {base : Word} {x y : Nat} {m : Memory} (hm : Memory.wf m = true)
    (ks : List (Int × Int × Int)) : ks.foldl (diffuse cfg base x y 0) m = m := by
  induction ks with
  | nil => rfl
  | cons k ks ih => rw [List.foldl_cons, diffuse_zero_err hm, ih]

/-- The weight that the entries `ks` of a kernel give pixel `(x', y')` when `(x, y)` is dithered: that of the entry which names it,
0 where none does. -/
def neighbourWeight (x y x' y' : Nat) : List (Int × Int × Int) → Int
  | [] => 0
  | k :: ks => if (x' : Int) = x + k.1 ∧ (y' : Int) = y + k.2.1 then k.2.2 else neighbourWeight x y x' y' ks

theorem neighbourWeight_eq_zero {x y x' y' : Nat} {ks : List (Int × Int × Int)}
    (h : ∀ k ∈ ks, ¬((x' : Int) = x + k.1 ∧ (y' : Int) = y + k.2.1)) : neighbourWeight x y x' y' ks = 0 := by
  induction ks with
  | nil => rfl
  | cons k ks ih => rw [neighbourWeight, if_neg (h k (by simp)), ih fun k' hk' => h k' (by simp [hk'])]

theorem neighbourWeight_kernel (x y x' y' : Nat) : neighbourWeight x y x' y' kernel =
    if x' = x + 1 ∧ y' = y then 7
    else if x' + 1 = x ∧ y' = y + 1 then 3
    else if x' = x ∧ y' = y + 1 then 5
    else if x' = x + 1 ∧ y' = y + 1 then 1
    else 0 := by
  refine if_congr ?_ rfl (if_congr ?_ rfl (if_congr ?_ rfl (if_congr ?_ rfl rfl))) <;> dsimp only <;> omega

theorem kernel_names_each_pixel_once : kernel.Pairwise fun k k' => ¬(k.1 = k'.1 ∧ k.2.1 = k'.2.1) := by decide

/-- Entries that name distinct pixels: each panel pixel takes the share of its weight, read from the old memory. -/
theorem rd888_diffuse_foldl {cfg : Config} {base : Word} (hc : cfg.admitted = true) {x y : Nat} (err : Int)
    {x' y' : Nat} (hx' : x' < cfg.W) (hy' : y' < cfg.H) {ks : List (Int × Int × Int)}
    (hks : ks.Pairwise fun k k' => ¬(k.1 = k'.1 ∧ k.2.1 = k'.2.1)) {m : Memory} (hm : Memory.wf m = true) :
    rd888 (ks.foldl (diffuse cfg base x y err) m) (panelEa cfg base x' y') =
      addShare (rd888 m (panelEa cfg base x' y')) (share cfg.shareRule err (neighbourWeight x y x' y' ks)) := by
  induction ks generalizing m with
  | nil => rw [neighbourWeight, share_zero_weight, addShare_zero, List.foldl_nil]
  | cons k ks ih =>
    obtain ⟨hk, hks⟩ := List.pairwise_cons.1 hks
    rw [List.foldl_cons, ih hks (diffuse_wf hm k), rd888_diffuse hc err hm k hx' hy', neighbourWeight]
    by_cases hit : (x' : Int) = x + k.1 ∧ (y' : Int) = y + k.2.1
    · have hrest : neighbourWeight x y x' y' ks = 0 :=
        neighbourWeight_eq_zero fun k' hk' hit' => hk k' hk' (by omega)
      rw [if_pos hit, if_pos hit, hrest, share_zero_weight, addShare_zero]
    · rw [if_neg hit, if_neg hit]

/-- Settles O14: WB by the write primitive, the panel's triples by the kernel's entries, the rest of memory by the frame of the
step. -/
theorem ditherStepSharesErrorWithNeighbours : Obligations.DitherStepSharesErrorWithNeighbours := by
  intro cfg base m wb x y hc hm hl hx hy c gr err out
  refine ⟨fun x' y' hx' hy' => ?_, fun x' y' hx' hy' => ?_, fun a ha => memRead_ditherPixel_other fun off _ => ha off⟩
  · obtain ⟨_, _, h8, _⟩ := (Config.admitted_iff cfg).1 hc
    split
    · next h =>
      rw [h.1, h.2]
      exact pixel_setPixel_same _ (hl ▸ pixelIdx_lt h8 hx hy)
    · next h => exact pixel_setPixel_other wb _ hx hx' h
  · intro weight q old new
    have herr : ditherErr c = err := ditherErr_eq c
    have hweight : neighbourWeight x y x' y' kernel = weight := neighbourWeight_kernel x y x' y'
    have hnew : new = addShare old (share cfg.shareRule (ditherErr c) (neighbourWeight x y x' y' kernel)) :=
      rd888_diffuse_foldl hc (ditherErr c) hx' hy' kernel_names_each_pixel_once hm
    rw [herr, hweight] at hnew
    rw [hnew]
    exact ⟨clamp255_toNat _, clamp255_toNat _, clamp255_toNat _⟩

/-! ### The order of the pass (41_ditherer.md R100, R105) -/

/-- Memory and WB after the first `k` pixels of the raster order. -/
def ditherPass (cfg : Config) (base : Word) (m : Memory) (wb : PixelBuffer) (k : Nat) : Memory × PixelBuffer :=
  ((raster cfg.W cfg.H).take k).foldl (ditherPixel cfg base) (m, wb)

theorem ditherPass_succ {cfg : Config} (base : Word) (m : Memory) (wb : PixelBuffer) {k : Nat} (hk : k < cfg.W * cfg.H) :
    ditherPass cfg base m wb (k + 1) =
      ditherPixel cfg base (ditherPass cfg base m wb k) (k % cfg.W, k / cfg.W) := by
  have hk' : k < (raster cfg.W cfg.H).length := by rwa [length_raster]
  rw [ditherPass, List.take_succ_eq_append_getElem hk', List.foldl_append, raster_getElem]
  rfl

theorem ditherPass_all (cfg : Config) (base : Word) (m : Memory) (wb : PixelBuffer) :
    ditherPass cfg base m wb (cfg.W * cfg.H) = ditherPanel cfg base m wb := by
  rw [ditherPass, ← length_raster, List.take_length, ditherPanel_eq]

theorem exec_fillpanelraw {s : State} (addr : Word) (hm : s.mode = .ready) :
    exec (.fillpanelraw addr) s = .next { s with
      mem := (ditherPanel s.cfg addr s.mem s.wb).1
      wb := (ditherPanel s.cfg addr s.mem s.wb).2
      responses := s.responses ++ [{ status := .ok, data := 0 }] } := perform_ready hm

/-- Settles O15: the sequence is the pass cut off after `k` pixels. -/
theorem fillPanelRawVisitsInRasterOrder : Obligations.FillPanelRawVisitsInRasterOrder := by
  intro addr s _ hm
  refine ⟨ditherPass s.cfg addr s.mem s.wb, rfl, fun k hk => ditherPass_succ addr s.mem s.wb hk, ?_⟩
  rw [ditherPass_all, exec_fillpanelraw addr hm]

/-! ### The old content of WB (41_ditherer.md R105) -/

/-- From two buffers the steps at the same pixels leave the same memory, and buffers that agree on those pixels and wherever they
agreed before. -/
theorem ditherList_agree {cfg : Config} (h8 : cfg.H % 8 = 0) (base : Word) (ps : List (Nat × Nat))
    (hps : ∀ p ∈ ps, p.1 < cfg.W ∧ p.2 < cfg.H) (m : Memory) {wb wb' : PixelBuffer} (hl : wb.length = cfg.nb)
    (hl' : wb'.length = cfg.nb) :
    (ps.foldl (ditherPixel cfg base) (m, wb)).1 = (ps.foldl (ditherPixel cfg base) (m, wb')).1 ∧
    ∀ x y, x < cfg.W → ((x, y) ∈ ps ∨ pixel cfg wb x y = pixel cfg wb' x y) →
      pixel cfg (ps.foldl (ditherPixel cfg base) (m, wb)).2 x y =
        pixel cfg (ps.foldl (ditherPixel cfg base) (m, wb')).2 x y := by
  induction ps generalizing m wb wb' with
  | nil => exact ⟨rfl, fun x y _ h => h.resolve_left List.not_mem_nil⟩
  | cons p ps ih =>
    obtain ⟨hpx, hpy⟩ := hps p (by simp)
    obtain ⟨hmem, hpix⟩ := ih (fun q hq => hps q (by simp [hq])) (ditherPixel cfg base (m, wb) p).1
      ((length_ditherPixel cfg base (m, wb) p).trans hl) ((length_ditherPixel cfg base (m, wb') p).trans hl')
    refine ⟨hmem, fun x y hx h => hpix x y hx ?_⟩
    have hidx := pixelIdx_lt h8 hpx hpy
    by_cases hp : x = p.1 ∧ y = p.2
    · right
      rw [hp.1, hp.2]
      exact (pixel_setPixel_same _ (hl ▸ hidx)).trans (pixel_setPixel_same _ (hl' ▸ hidx)).symm
    · refine h.imp (fun h => (List.mem_cons.1 h).resolve_left fun e => hp (Prod.ext_iff.1 e)) fun h => ?_
      exact (pixel_setPixel_other wb _ hpx hx hp).trans (h.trans (pixel_setPixel_other wb' _ hpx hx hp).symm)

/-- The pass visits every pixel, so nothing of the old WB is left. -/
theorem ditherPanel_ignores_wb {cfg : Config} (hc : cfg.admitted = true) (base : Word) (m : Memory) {wb wb' : PixelBuffer}
    (hl : wb.length = cfg.nb) (hl' : wb'.length = cfg.nb) : ditherPanel cfg base m wb = ditherPanel cfg base m wb' := by
  obtain ⟨hW, _, h8, _⟩ := (Config.admitted_iff cfg).1 hc
  obtain ⟨hmem, hpix⟩ := ditherList_agree h8 base (raster cfg.W cfg.H) (fun _ => mem_raster.1) m hl hl'
  refine Prod.ext hmem (buffer_ext h8 hW ?_ ?_ fun x y hx hy => hpix x y hx (.inl (mem_raster.2 ⟨hx, hy⟩)))
  · rw [length_ditherPanel, hl]
  · rw [length_ditherPanel, hl']

/-- Settles O18: the pass gives the same memory and the same WB, and no other field is read. -/
theorem fillPanelRawIgnoresOldWorkingBuffer : Obligations.FillPanelRawIgnoresOldWorkingBuffer := by
  intro addr s wb hs hm hl
  refine ⟨_, exec_fillpanelraw addr hm, (exec_fillpanelraw (s := { s with wb := wb }) addr hm).trans ?_⟩
  rw [ditherPanel_ignores_wb hs.cfg_admitted addr s.mem hl hs.wb_length]

/-! ### A uniform panel (41_ditherer.md R106 (b), (c)) -/

/-- Writing the value that a pixel has changes nothing. -/
theorem setPixel_pixel (cfg : Config) (buf : PixelBuffer) (x y : Nat) : setPixel cfg buf x y (pixel cfg buf x y) = buf := by
  rw [setPixel, pixel, putBit_getLsbD]
  by_cases h : pixelIdx cfg x y < buf.length
  · rw [List.getD_eq_getElem _ _ h, List.set_getElem_self]
  · exact List.set_eq_of_length_le (by omega)

theorem rd888_panel_uniform {cfg : Config} {base : Word} {m : Memory} {v : Byte}
    (h : ∀ off, off < 3 * (cfg.W * cfg.H) → memRead m (ea base off) = v) {x y : Nat} (hx : x < cfg.W) (hy : y < cfg.H) :
    rd888 m (panelEa cfg base x y) = { r := v, g := v, b := v } := by
  have hoff := panel_offset_lt hx hy
  rw [rd888, panelEa, ea_ea, ea_ea, h _ (by omega), h _ (by omega), h _ (by omega)]

/-- White and black are quantised without error. -/
theorem ditherErr_extreme {v : Byte} (hv : v = 0 ∨ v = 255) : ditherErr { r := v, g := v, b := v } = 0 := by
  rcases hv with rfl | rfl <;> decide

/-- A byte of a buffer that is all lit or all unlit holds the quantised colour in each of its bits. -/
theorem getLsbD_extreme {v : Byte} (hv : v = 0 ∨ v = 255) {k : Nat} (hk : k < 8) :
    v.getLsbD k = ditherLit { r := v, g := v, b := v } := by
  revert k
  rcases hv with rfl | rfl <;> decide

/-- The step at a white or black pixel of a uniform panel changes nothing once its bit is right. -/
theorem ditherPixel_uniform {cfg : Config} (hc : cfg.admitted = true) {base : Word} {m : Memory} (hm : Memory.wf m = true)
    {v : Byte} (hv : v = 0 ∨ v = 255) (h : ∀ off, off < 3 * (cfg.W * cfg.H) → memRead m (ea base off) = v)
    {p : Nat × Nat} (hx : p.1 < cfg.W) (hy : p.2 < cfg.H) :
    ditherPixel cfg base (m, List.replicate cfg.nb v) p = (m, List.replicate cfg.nb v) := by
  obtain ⟨_, _, h8, _⟩ := (Config.admitted_iff cfg).1 hc
  have hbit : ditherLit { r := v, g := v, b := v } = pixel cfg (List.replicate cfg.nb v) p.1 p.2 := by
    rw [pixel_replicate v (pixelIdx_lt h8 hx hy), getLsbD_extreme hv (show pixelPos p.2 < 8 from Nat.mod_lt _ (by decide))]
  unfold ditherPixel
  simp only [rd888_panel_uniform h hx hy, ditherErr_extreme hv, diffuse_foldl_zero_err hm, hbit, setPixel_pixel]

/-- Settles O17: by O18 the pass may start from a WB that already has the right bits, and then no step changes anything. -/
theorem ditherKeepsUniformWhiteAndBlack : Obligations.DitherKeepsUniformWhiteAndBlack := by
  intro addr s v hs hm hv h
  have hpass : ditherPanel s.cfg addr s.mem (List.replicate s.cfg.nb v) = (s.mem, List.replicate s.cfg.nb v) := by
    refine List.foldlRecOn (motive := (· = (s.mem, List.replicate s.cfg.nb v))) _ _ rfl fun mw hmw p hp => ?_
    obtain ⟨hx, hy⟩ := mem_raster.1 hp
    rw [hmw, ditherPixel_uniform hs.cfg_admitted hs.mem_wf hv h hx hy]
  rw [exec_fillpanelraw addr hm, ditherPanel_ignores_wb hs.cfg_admitted addr s.mem hs.wb_length List.length_replicate, hpass]

end Sys2Proof.Machine
end

section
/-! SUPPORT. The framebuffer manager and the throttle: what each of its commands does, AB and the most recent blit, and runs of
UPDATE (spec 42_framebuffer_manager.md R120 to R127). -/

namespace Sys2Proof.Machine

/-! ### What each command does in READY -/

theorem exec_swap {s : State} (hm : s.mode = .ready) : exec .swap s = .next (respond .ok 0 (swapAction s)) := perform_ready hm

theorem exec_copyfb {s : State} (hm : s.mode = .ready) : exec .copyfb s = .next (respond .ok 0 (copyAction s)) :=
  perform_ready hm

theorem exec_clear {s : State} (hm : s.mode = .ready) : exec .clear s =
    .next (respond .ok 0 (emit [.tClearFb, .tPresent] { s with wb := List.replicate s.cfg.nb 0 })) := perform_ready hm

theorem exec_setbrt {s : State} (level : Byte) (hm : s.mode = .ready) :
    exec (.setbrt level) s = .next (respond .ok 0 s) := perform_ready hm

/-- The compare of the throttle is "at least" (42_framebuffer_manager.md R124). -/
theorem refreshDue_iff (s : State) : refreshDue s = true ↔ 33 ≤ (s.now - s.last).toNat := decide_eq_true_iff

theorem exec_update_due {s : State} (hm : s.mode = .ready) (hd : 33 ≤ (s.now - s.last).toNat) :
    exec .update s = .next (respond .ok 1 { copyAction (swapAction s) with last := s.now }) :=
  (perform_ready hm).trans (congrArg _ (if_pos ((refreshDue_iff s).2 hd)))

theorem exec_update_early {s : State} (hm : s.mode = .ready) (hd : (s.now - s.last).toNat < 33) :
    exec .update s = .next (respond .ok 0 s) :=
  (perform_ready hm).trans (congrArg _ (if_neg (mt (refreshDue_iff s).1 (Nat.not_le.2 hd))))

/-- Settles O19: SWAP is the swap action and its answer. -/
theorem swapCopiesAndPresents : Obligations.SwapCopiesAndPresents := fun _ hm => exec_swap hm

/-- Settles O20: COPYFB is the copy action and its answer. -/
theorem copyFbRestoresActive : Obligations.CopyFbRestoresActive := fun _ hm => exec_copyfb hm

theorem toNat_sub_eq_mod (a b : Word) : (a - b).toNat = (a.toNat + 2 ^ 32 - b.toNat) % 2 ^ 32 := by
  have hb := b.isLt
  rw [BitVec.toNat_sub]
  omega

/-- Settles O21: the two answers of the compare, its difference written modulo 2^32. -/
theorem updateRefreshesWhenDue : Obligations.UpdateRefreshesWhenDue := by
  intro s hm
  rw [← toNat_sub_eq_mod]
  exact ⟨exec_update_due hm, exec_update_early hm⟩

/-- Settles O22: CLEAR blanks WB and emits its two events. -/
theorem clearBlanksWorkingAndDisplay : Obligations.ClearBlanksWorkingAndDisplay := fun _ hm => exec_clear hm

/-- Settles O23: SETBRT only answers. -/
theorem setBrightnessChangesNothing : Obligations.SetBrightnessChangesNothing := fun level _ hm => exec_setbrt level hm

/-- Settles O24: COPYFB brings back the WB that SWAP copied to AB. -/
theorem swapThenCopyLeavesBuffersEqual : Obligations.SwapThenCopyLeavesBuffersEqual := fun s hm =>
  ⟨respond .ok 0 (swapAction s), _, exec_swap hm, exec_copyfb hm, rfl, rfl, rfl⟩

/-! ### AB and the most recent blit -/

theorem lastBlit_cons (e : Event) (es : List Event) : lastBlit (e :: es) = (lastBlit es).or (lastBlit [e]) := by
  rw [lastBlit.eq_def]
  dsimp only
  cases lastBlit es with
  | none => cases e <;> rfl
  | some d => rfl

/-- The most recent blit of a longer run: one among the new events, else the one before them. -/
theorem lastBlit_append (es fs : List Event) : lastBlit (es ++ fs) = (lastBlit fs).or (lastBlit es) := by
  induction es with
  | nil => exact (Option.or_none ..).symm
  | cons e es ih => rw [List.cons_append, lastBlit_cons, ih, Option.or_assoc, ← lastBlit_cons]

theorem lastBlit_frameEvents (cfg : Config) (frame : PixelBuffer) : lastBlit (frameEvents cfg frame) = some frame := rfl

theorem lastBlit_clearEvents : lastBlit clearEvents = none := rfl

/-- Presenting AB, whatever was emitted before, makes it the most recent blit. -/
theorem State.ActiveIsLastBlit.of_frame {s : State} {es : List Event} (he : s.events = es ++ frameEvents s.cfg s.ab) :
    s.ActiveIsLastBlit := by
  rw [ActiveIsLastBlit, he, lastBlit_append, lastBlit_frameEvents]
  rfl

/-- The commands that copy WB to AB blit that copy; the others keep AB and blit nothing. -/
theorem Effect.activeIsLastBlit {s t : State} (he : Effect s t) (hs : s.ActiveIsLastBlit) : t.ActiveIsLastBlit := by
  cases he with
  | answered | drawn | dithered | copied => exact hs
  | swapped | refreshed => exact .of_frame (es := s.events) rfl
  | cleared =>
    change s.ab = (lastBlit (s.events ++ clearEvents)).getD _
    rw [lastBlit_append, lastBlit_clearEvents]
    exact hs

/-- Settles O56: by the three things a step can do. -/
theorem stepKeepsActiveIsLastBlit : Obligations.StepKeepsActiveIsLastBlit := by
  intro s t hs h
  obtain ⟨_, rfl⟩ | ⟨a, v, rest, _, rfl⟩ | ⟨cmd, now, rest, _, he⟩ := step_effect h
  · exact hs
  · exact hs
  · exact he.activeIsLastBlit hs

/-! ### Runs of UPDATE -/

theorem step_of_update {s : State} {now : Word} {rest : List HostMove} (hc : s.cfg.admitted = true)
    (hp : s.port = .issue (encode .update) now :: rest) : step s = exec .update (acceptCommand now rest s) :=
  step_of_decoded hc hp (decodeOfEncodeIsTheCommand .update)

theorem run_of_update {n : Nat} {s t : State} {now : Word} {rest : List HostMove} (hc : s.cfg.admitted = true)
    (hp : s.port = .issue (encode .update) now :: rest) (he : exec .update (acceptCommand now rest s) = .next t) :
    run (n + 1) s = run n t :=
  run_succ n s t ((step_of_update hc hp).trans he)

/-- Settles O27: three steps, of which the first and the third find the interval elapsed since the LAST they read. -/
theorem updateTwiceWithinIntervalPresentsOnce : Obligations.UpdateTwiceWithinIntervalPresentsOnce := by
  intro s n1 n2 n3 hc hm hp h1 h2 h3
  have hrun := calc run 3 s
    _ = run 2 _ := run_of_update hc hp (exec_update_due hm h1)
    _ = run 1 _ := run_of_update hc rfl (exec_update_early hm h2)
    _ = .next _ := run_of_update hc rfl (exec_update_due hm h3)
  exact ⟨_, hrun, rfl, by simp, rfl⟩

/-- In either mode an UPDATE leaves LAST and emits nothing, or it finds the interval elapsed and presents a frame. -/
theorem exec_update_cases (s : State) : ∃ t, exec .update s = .next t ∧ t.cfg = s.cfg ∧ t.port = s.port ∧
    (t.last = s.last ∧ t.events = s.events ∨
     33 ≤ (s.now - s.last).toNat ∧ t.last = s.now ∧ t.events = s.events ++ frameEvents s.cfg s.wb) := by
  cases hm : s.mode with
  | halted => exact ⟨_, perform_halted hm, rfl, rfl, .inl ⟨rfl, rfl⟩⟩
  | ready =>
    obtain hd | hd := Nat.lt_or_ge (s.now - s.last).toNat 33
    · exact ⟨_, exec_update_early hm hd, rfl, rfl, .inl ⟨rfl, rfl⟩⟩
    · exact ⟨_, exec_update_due hm hd, rfl, rfl, .inr ⟨hd, rfl, rfl⟩⟩

/-- The moves of a host that issues an UPDATE at each of these true times. -/
def updatesAt (times : List Nat) : List HostMove :=
  times.map fun t => .issue (encode .update) (BitVec.ofNat 32 t)

theorem step_of_updatesAt {s : State} {time : Nat} {times : List Nat} (hc : s.cfg.admitted = true)
    (hp : s.port = updatesAt (time :: times)) : ∃ t, step s = .next t ∧ t.cfg.admitted = true ∧ t.port = updatesAt times ∧
    (t.last = s.last ∧ t.events = s.events ∨
     33 ≤ (BitVec.ofNat 32 time - s.last).toNat ∧ t.last = BitVec.ofNat 32 time ∧
       t.events = s.events ++ frameEvents s.cfg s.wb) := by
  obtain ⟨t, ht, hcfg, hport, hcases⟩ := exec_update_cases (acceptCommand (BitVec.ofNat 32 time) (updatesAt times) s)
  exact ⟨t, (step_of_update hc hp).trans ht, hcfg ▸ hc, hport, hcases⟩

/-- UPDATEs that all find the interval not elapsed since LAST emit nothing. -/
theorem run_updates_early {times : List Nat} : ∀ {s : State}, s.cfg.admitted = true → s.port = updatesAt times →
    (∀ time ∈ times, (BitVec.ofNat 32 time - s.last).toNat < 33) →
    ∃ u, run times.length s = .next u ∧ u.events = s.events := by
  induction times with
  | nil => exact fun _ _ _ => ⟨_, rfl, rfl⟩
  | cons time times ih =>
    intro s hc hp hearly
    obtain ⟨hnow, hlater⟩ := List.forall_mem_cons.1 hearly
    obtain ⟨t, ht, htc, htp, ⟨hlast, hevents⟩ | ⟨hdue, -⟩⟩ := step_of_updatesAt hc hp
    · obtain ⟨u, hu, hue⟩ := ih htc htp (hlast ▸ hlater)
      exact ⟨u, (run_succ _ _ _ ht).trans hu, hue.trans hevents⟩
    · exact absurd hdue (Nat.not_le.2 hnow)

/-- True times less than 33 ms apart are so on the clock, across its wrap (42_framebuffer_manager.md R127 (d)). -/
theorem toNat_ofNat_sub_lt_interval {t u : Nat} (htu : t ≤ u) (hut : u < t + 33) :
    (BitVec.ofNat 32 u - BitVec.ofNat 32 t).toNat < 33 := by
  rw [BitVec.toNat_sub, BitVec.toNat_ofNat, BitVec.toNat_ofNat]
  omega

theorem count_present_frameEvents (cfg : Config) (frame : PixelBuffer) : (frameEvents cfg frame).count .tPresent = 1 := rfl

/-- Settles O28, by induction on the times: the first UPDATE that presents sets LAST to its own time, and finds the rest early. -/
theorem updatesInOneIntervalPresentAtMostOnce : Obligations.UpdatesInOneIntervalPresentAtMostOnce := by
  intro times
  induction times with
  | nil => exact fun s _ _ _ _ => ⟨s, rfl, Nat.le_succ _⟩
  | cons time times ih =>
    intro s hc hsorted hwindow hp
    obtain ⟨hle, hsorted'⟩ := List.pairwise_cons.1 hsorted
    obtain ⟨t, ht, htc, htp, ⟨-, hevents⟩ | ⟨-, hlast, hevents⟩⟩ := step_of_updatesAt hc hp
    · have hwindow' : ∀ a ∈ times, ∀ b ∈ times, b < a + 33 := fun a ha b hb =>
        hwindow a (List.mem_cons_of_mem _ ha) b (List.mem_cons_of_mem _ hb)
      obtain ⟨u, hu, hcount⟩ := ih t htc hsorted' hwindow' htp
      exact ⟨u, (run_succ _ _ _ ht).trans hu, hevents ▸ hcount⟩
    · have hearly : ∀ later ∈ times, (BitVec.ofNat 32 later - t.last).toNat < 33 := fun later hl =>
        hlast ▸ toNat_ofNat_sub_lt_interval (hle later hl) (hwindow time List.mem_cons_self later (List.mem_cons_of_mem _ hl))
      obtain ⟨u, hu, hue⟩ := run_updates_early htc htp hearly
      refine ⟨u, (run_succ _ _ _ ht).trans hu, ?_⟩
      rw [hue, hevents, List.count_append, count_present_frameEvents]

end Sys2Proof.Machine
end

section
/-! SUPPORT. The zone compositor: the zones of the panel, what each fill leaves at every pixel, a run of zone fills, and TEXT (spec
43_zone_compositor.md R140 to R148). -/

namespace Sys2Proof.Machine

/-! ### The zones of the panel (43_zone_compositor.md R140) -/

/-- The index of the zone that a panel pixel lies in. -/
def zoneAt (cfg : Config) (x y : Nat) : Nat := (y / cfg.ZH) * cfg.zpr + x / cfg.ZW

theorem xOff_add_mod {cfg : Config} (idx : Nat) {zx : Nat} (hx : zx < cfg.ZW) : (xOff cfg idx + zx) % cfg.ZW = zx := by
  rw [xOff, Nat.mul_add_mod_self_right, Nat.mod_eq_of_lt hx]

theorem yOff_add_mod {cfg : Config} (idx : Nat) {zy : Nat} (hy : zy < cfg.ZH) : (yOff cfg idx + zy) % cfg.ZH = zy := by
  rw [yOff, Nat.mul_add_mod_self_right, Nat.mod_eq_of_lt hy]

theorem le_yOff_of_nz_le {cfg : Config} (hc : cfg.admitted = true) {idx : Nat} (hi : cfg.nz ≤ idx) : cfg.H ≤ yOff cfg idx := by
  obtain ⟨hz, -, eH⟩ := zones_divide hc
  have hrows : cfg.zrows ≤ idx / cfg.zpr := (Nat.le_div_iff_mul_le hz).2 (by rwa [Nat.mul_comm])
  calc cfg.H = cfg.zrows * cfg.ZH := eH.symm
    _ ≤ idx / cfg.zpr * cfg.ZH := Nat.mul_le_mul_right _ hrows

/-- Zone indices fit an operand word (00_scope.md R5). -/
theorem nz_lt_word {cfg : Config} (hc : cfg.admitted = true) : cfg.nz < 2 ^ 32 := by
  obtain ⟨_, _, _, _, _, _, _, hsz⟩ := (Config.admitted_iff cfg).1 hc
  have hle : cfg.nz ≤ cfg.W * cfg.H := Nat.mul_le_mul (Nat.div_le_self ..) (Nat.div_le_self ..)
  rw [Nat.mul_assoc] at hsz
  omega

theorem fillZone_refused {s : State} {idx : Word} (hi : s.cfg.nz ≤ idx.toNat) (f : Nat → Nat → Bool) :
    fillZone idx f s = raise .range s :=
  whenInRange_false (decide_eq_false (Nat.not_lt.2 hi))

/-! ### What each fill does in READY -/

theorem exec_fillzone888 {s : State} (idx addr : Word) (hm : s.mode = .ready) : exec (.fillzone888 idx addr) s =
    .next (fillZone idx (fun zx zy => toMono888 (rd888 s.mem (zone888Ea s.cfg addr zx zy))) s) := perform_ready hm

theorem exec_fillzone565 {s : State} (idx addr : Word) (hm : s.mode = .ready) : exec (.fillzone565 idx addr) s =
    .next (fillZone idx (fun zx zy => toMono565 (rd565 s.mem (zone565Ea s.cfg addr zx zy))) s) := perform_ready hm

theorem exec_fillpal {s : State} (addr pal : Word) (hm : s.mode = .ready) : exec (.fillpal addr pal) s =
    .next (fillPanel (fun x y => some (paletteLit s pal (indexAt s addr x y))) s) := perform_ready hm

theorem exec_fillpalchg {s : State} (addr pal flg : Word) (hm : s.mode = .ready) : exec (.fillpalchg addr pal flg) s =
    .next (fillPanel (fun x y =>
      if flagged s flg (indexAt s addr x y) then some (paletteLit s pal (indexAt s addr x y)) else none) s) :=
  perform_ready hm

theorem exec_fillscr {s : State} (c : Rgb) (hm : s.mode = .ready) :
    exec (.fillscr c) s = .next (fillPanel (fun _ _ => some (toMono888 c)) s) := perform_ready hm

/-- Settles O29: an index is a zone row and a zone column, in range together. -/
theorem zonesTileThePanel : Obligations.ZonesTileThePanel := by
  intro cfg hc
  refine ⟨fun _ => ⟨rfl, rfl⟩, fun _ => zone_in_panel hc, fun _ => le_yOff_of_nz_le hc, fun x y hx hy => ?_, ?_⟩
  · obtain ⟨hnz, hx1, hx2, hy1, hy2⟩ := (zone_of_pixel hc hx hy).2 rfl
    exact ⟨_, hnz, hx1, hx2, hy1, hy2, fun j hj h1 h2 h3 h4 => (zone_of_pixel hc hx hy).1 ⟨hj, h1, h2, h3, h4⟩⟩
  · rintro s idx addr rfl hm hi
    rw [exec_fillzone888 idx addr hm, exec_fillzone565 idx addr hm, fillZone_refused hi, fillZone_refused hi]
    exact ⟨rfl, rfl⟩

/-! ### The thresholds by the bytes read (20_memory.md R41, R42) -/

theorem toMono888_rd888 (m : Memory) (base : Word) (off : Nat) : toMono888 (rd888 m (ea base off)) =
    decide (128000 ≤ 299 * (memRead m (ea base off)).toNat + 587 * (memRead m (ea base (off + 1))).toNat
      + 114 * (memRead m (ea base (off + 2))).toNat) := by
  rw [toMono888, lumSum, rd888, ea_ea, ea_ea]

theorem toNat_rd565 (m : Memory) (base : Word) (off : Nat) : (rd565 m (ea base off)).toNat =
    (memRead m (ea base off)).toNat + 256 * (memRead m (ea base (off + 1))).toNat := by
  rw [rd565_toNat, ea_ea]

/-! ### The zone fills (43_zone_compositor.md R141, R142) -/

/-- Settles O30: FILLZONE888 is a zone fill in the thresholds of the triples. -/
theorem fillZone888DrawsItsZone : Obligations.FillZone888DrawsItsZone := by
  intro idx addr s hs hm hi
  simp only [exec_fillzone888 idx addr hm, Host.Outcome.next.injEq, ← toMono888_rd888]
  exact fillZone_spec hs idx hi _

/-- Settles O31: as O30, the threshold written by the fields of the word. -/
theorem fillZone565DrawsItsZone : Obligations.FillZone565DrawsItsZone := by
  intro idx addr s hs hm hi
  simp only [exec_fillzone565 idx addr hm, Host.Outcome.next.injEq, ← toNat_rd565, ← toMono565_eq]
  exact fillZone_spec hs idx hi _

/-! ### The panel fills (43_zone_compositor.md R143 to R145) -/

theorem paletteLit_eq (s : State) (pal : Word) (i : Byte) : paletteLit s pal i =
    decide (128000 ≤ 299 * (memRead s.mem (ea pal (3 * i.toNat))).toNat
      + 587 * (memRead s.mem (ea pal (3 * i.toNat + 1))).toNat + 114 * (memRead s.mem (ea pal (3 * i.toNat + 2))).toNat) :=
  toMono888_rd888 s.mem pal (3 * i.toNat)

theorem flagged_iff (s : State) (flg : Word) (i : Byte) : flagged s flg i = true ↔ memRead s.mem (ea flg i.toNat) ≠ 0 :=
  bne_iff_ne

/-- Settles O32: FILLPAL is a panel fill that colours every pixel. -/
theorem fillPalDrawsEveryPixel : Obligations.FillPalDrawsEveryPixel := by
  intro addr pal s hs hm
  obtain ⟨wb, hfill, hlen, hpix⟩ := fillPanel_spec hs fun x y => some (paletteLit s pal (indexAt s addr x y))
  refine ⟨wb, (exec_fillpal addr pal hm).trans (congrArg _ hfill), hlen, fun x y hx hy => ?_⟩
  exact (hpix x y hx hy).trans (paletteLit_eq ..)

/-- Settles O33: FILLPALCHG is a panel fill that colours the flagged pixels. -/
theorem fillPalChgDrawsFlaggedPixels : Obligations.FillPalChgDrawsFlaggedPixels := by
  intro addr pal flg s hs hm
  obtain ⟨wb, hfill, hlen, hpix⟩ := fillPanel_spec hs fun x y =>
    if flagged s flg (indexAt s addr x y) then some (paletteLit s pal (indexAt s addr x y)) else none
  refine ⟨wb, (exec_fillpalchg addr pal flg hm).trans (congrArg _ hfill), hlen, fun x y hx hy => (hpix x y hx hy).trans ?_⟩
  by_cases hflag : memRead s.mem (ea flg (indexAt s addr x y).toNat) = 0
  · rw [if_neg (mt (flagged_iff ..).1 (not_not.2 hflag))]
    exact (if_pos hflag).symm
  · rw [if_pos ((flagged_iff ..).2 hflag)]
    exact (paletteLit_eq ..).trans (if_neg hflag).symm

/-- A panel fill is known by its pixels. -/
theorem fillPanel_eq_of_pixels {s : State} (hs : s.WellSized) {f : Nat → Nat → Option Bool} {wb : PixelBuffer}
    (hl : wb.length = s.cfg.nb)
    (hpix : ∀ x y, x < s.cfg.W → y < s.cfg.H → (f x y).getD (pixel s.cfg s.wb x y) = pixel s.cfg wb x y) :
    fillPanel f s = respond .ok 0 { s with wb := wb } := by
  obtain ⟨hW, _, h8, _⟩ := (Config.admitted_iff _).1 hs.cfg_admitted
  obtain ⟨wb', hfill, hlen', hpix'⟩ := fillPanel_spec hs f
  obtain rfl : wb' = wb := buffer_ext h8 hW (hlen'.trans hs.wb_length) hl fun x y hx hy =>
    (hpix' x y hx hy).trans (hpix x y hx hy)
  exact hfill

theorem getLsbD_filled (lit : Bool) {k : Nat} (hk : k < 8) : (if lit then 0xFF else 0x00 : Byte).getLsbD k = lit := by
  revert k
  cases lit <;> decide

/-- Settles O34: a buffer of equal bytes, all lit or all unlit, has the pixels of the fill. -/
theorem fillScrFillsEveryByte : Obligations.FillScrFillsEveryByte := by
  intro c s hs hm
  obtain ⟨_, _, h8, _⟩ := (Config.admitted_iff _).1 hs.cfg_admitted
  have hfill : fillPanel (fun _ _ => some (toMono888 c)) s =
      respond .ok 0 { s with wb := List.replicate s.cfg.nb (if toMono888 c then 0xFF else 0x00) } := by
    refine fillPanel_eq_of_pixels hs List.length_replicate fun x y hx hy => ?_
    rw [pixel_replicate _ (pixelIdx_lt h8 hx hy), getLsbD_filled _ (show pixelPos y < 8 from Nat.mod_lt _ (by decide))]
    rfl
  simp only [exec_fillscr c hm, hfill, toMono888_iff]
  rfl

/-- Settles O35: with all flags set the two fills have one colour function; with none set the old WB has the pixels of the fill. -/
theorem paletteFlagsDecideTheFill : Obligations.PaletteFlagsDecideTheFill := by
  intro addr pal flg s hs hm
  refine ⟨fun hall => ⟨_, ?_, exec_fillpal addr pal hm⟩, fun hnone => ?_⟩
  · have hflag (i : Byte) : flagged s flg i = true := (flagged_iff ..).2 (hall _ i.isLt)
    simp only [exec_fillpalchg addr pal flg hm, hflag, if_true]
  · have hflag (i : Byte) : flagged s flg i = false := Bool.eq_false_iff.2 fun h => (flagged_iff ..).1 h (hnone _ i.isLt)
    simp only [exec_fillpalchg addr pal flg hm, hflag, Bool.false_eq_true, if_false]
    exact congrArg _ (fillPanel_eq_of_pixels hs hs.wb_length fun _ _ _ _ => rfl)

/-! ### A run of zone fills (43_zone_compositor.md R148 (c)) -/

/-- What a zone fill leaves at each pixel of the panel, by the pixel's own zone and its place in it. -/
theorem fillZone_pixel {s : State} (hs : s.WellSized) {idx : Word} (hi : idx.toNat < s.cfg.nz) (f : Nat → Nat → Bool) :
    ∃ wb : PixelBuffer, fillZone idx f s = respond .ok 0 { s with wb := wb } ∧ wb.length = s.wb.length ∧
      ∀ x y, x < s.cfg.W → y < s.cfg.H → pixel s.cfg wb x y =
        if zoneAt s.cfg x y = idx.toNat then f (x % s.cfg.ZW) (y % s.cfg.ZH) else pixel s.cfg s.wb x y := by
  obtain ⟨wb, hfill, hlen, hin, hout⟩ := fillZone_spec hs idx hi f
  refine ⟨wb, hfill, hlen, fun x y hx hy => ?_⟩
  have hzone := zone_of_pixel hs.cfg_admitted hx hy (j := idx.toNat)
  split
  · next h =>
    obtain ⟨-, hx1, hx2, hy1, hy2⟩ := hzone.2 h.symm
    obtain ⟨zx, rfl⟩ := Nat.exists_eq_add_of_le hx1
    obtain ⟨zy, rfl⟩ := Nat.exists_eq_add_of_le hy1
    have hzx : zx < s.cfg.ZW := Nat.lt_of_add_lt_add_left hx2
    have hzy : zy < s.cfg.ZH := Nat.lt_of_add_lt_add_left hy2
    rw [xOff_add_mod _ hzx, yOff_add_mod _ hzy]
    exact hin zx zy hzx hzy
  · next h => exact hout x y hx hy fun hz => h (hzone.1 ⟨hi, hz⟩).symm

/-- The moves of a host that fills these zones, each from its own tile. -/
def zoneFillsAt (tile : Nat → Word) (now : Word) (zones : List Nat) : List HostMove :=
  zones.map fun i => .issue (encode (.fillzone888 (BitVec.ofNat 32 i) (tile i))) now

/-- The direct threshold of a panel pixel's triple in its zone's tile. -/
def tileLit (s : State) (tile : Nat → Word) (x y : Nat) : Bool :=
  toMono888 (rd888 s.mem (zone888Ea s.cfg (tile (zoneAt s.cfg x y)) (x % s.cfg.ZW) (y % s.cfg.ZH)))

theorem step_of_zoneFillsAt {s : State} (hs : s.WellSized) (hm : s.mode = .ready) {tile : Nat → Word} {now : Word} {i : Nat}
    {zones : List Nat} (hi : i < s.cfg.nz) (hp : s.port = zoneFillsAt tile now (i :: zones)) :
    ∃ wb : PixelBuffer, step s = .next (respond .ok 0 { acceptCommand now (zoneFillsAt tile now zones) s with wb := wb }) ∧
      wb.length = s.wb.length ∧
      ∀ x y, x < s.cfg.W → y < s.cfg.H → pixel s.cfg wb x y =
        if zoneAt s.cfg x y = i then tileLit s tile x y else pixel s.cfg s.wb x y := by
  have hidx : (BitVec.ofNat 32 i).toNat = i := by
    rw [BitVec.toNat_ofNat, Nat.mod_eq_of_lt (hi.trans (nz_lt_word hs.cfg_admitted))]
  obtain ⟨wb, hfill, hlen, hpix⟩ := fillZone_pixel (hs.acceptCommand now (zoneFillsAt tile now zones))
    (hidx.symm ▸ hi : (BitVec.ofNat 32 i).toNat < s.cfg.nz)
    fun zx zy => toMono888 (rd888 s.mem (zone888Ea s.cfg (tile i) zx zy))
  refine ⟨wb, ?_, hlen, fun x y hx hy => ?_⟩
  · rw [step_of_decoded hs.cfg_admitted hp (decodeOfEncodeIsTheCommand _)]
    exact (exec_fillzone888 (s := acceptCommand now (zoneFillsAt tile now zones) s) _ _ hm).trans (congrArg _ hfill)
  · refine (hpix x y hx hy).trans ?_
    rw [hidx]
    refine ite_congr rfl (fun h => ?_) fun _ => rfl
    rw [tileLit, h]
    rfl

/-- A run of zone fills draws the pixels of its zones and keeps the others. -/
theorem run_zoneFillsAt {tile : Nat → Word} {now : Word} {zones : List Nat} : ∀ {s : State}, s.WellSized → s.mode = .ready →
    (∀ i ∈ zones, i < s.cfg.nz) → s.port = zoneFillsAt tile now zones →
    ∃ t, run zones.length s = .next t ∧ t.mem = s.mem ∧ t.wb.length = s.wb.length ∧
      ∀ x y, x < s.cfg.W → y < s.cfg.H → pixel s.cfg t.wb x y =
        if zoneAt s.cfg x y ∈ zones then tileLit s tile x y else pixel s.cfg s.wb x y := by
  induction zones with
  | nil => exact fun _ _ _ _ => ⟨_, rfl, rfl, rfl, fun _ _ _ _ => (if_neg List.not_mem_nil).symm⟩
  | cons i zones ih =>
    intro s hs hm hlt hp
    obtain ⟨hi, hlt'⟩ := List.forall_mem_cons.1 hlt
    obtain ⟨wb, hstep, hlen, hpix⟩ := step_of_zoneFillsAt hs hm hi hp
    obtain ⟨t, hrun, hmem, hlen', hpix'⟩ := ih (stepKeepsWellSized _ _ hs hstep) hm hlt' rfl
    refine ⟨t, (run_succ _ _ _ hstep).trans hrun, hmem, hlen'.trans hlen, fun x y hx hy => (hpix' x y hx hy).trans ?_⟩
    by_cases hlater : zoneAt s.cfg x y ∈ zones
    · rw [if_pos (List.mem_cons_of_mem _ hlater)]
      exact if_pos hlater
    · refine (if_neg hlater).trans ((hpix x y hx hy).trans (if_congr ?_ rfl rfl))
      rw [List.mem_cons, or_iff_left hlater]

/-- Settles O36: the run fills every zone, and every pixel lies in one. -/
theorem allZonesMakeTheWholePanel : Obligations.AllZonesMakeTheWholePanel := by
  intro s tile now hs hm hp
  obtain ⟨t, hrun, hmem, hlen, hpix⟩ := run_zoneFillsAt hs hm (fun _ => List.mem_range.1) hp
  rw [List.length_range] at hrun
  refine ⟨t, hrun, hmem, hlen, fun x y hx hy => (hpix x y hx hy).trans (if_pos (List.mem_range.2 ?_))⟩
  exact ((zone_of_pixel hs.cfg_admitted hx hy).2 rfl).1

/-! ### TEXT (43_zone_compositor.md R147) -/

/-- `i` draws a pixel of the 4 by 6 cell at `(x0, y0)`: lit where the column's bit differs from the inversion flag, and no unlit pixel
of a transparent text. -/
def DrawsCellPixel (column : Nat → Byte) (x0 y0 : Nat) (transparent invert : Bool) (i : Instr) : Prop :=
  ∃ c j, c < 4 ∧ j < 6 ∧ (((column c).getLsbD j != invert) = true ∨ transparent = false) ∧
    i = (if (column c).getLsbD j != invert then drawLit else drawUnlit) (BitVec.ofNat 32 (x0 + c)) (BitVec.ofNat 32 (y0 + j))

theorem mem_textPixel {lit invert transparent : Bool} {x y : Word} {i : Instr} : i ∈ textPixel lit invert transparent x y ↔
    ((lit != invert) = true ∨ transparent = false) ∧ i = (if lit != invert then drawLit else drawUnlit) x y := by
  unfold textPixel
  cases lit != invert <;> cases transparent <;> simp

theorem mem_textCell {column : Nat → Byte} {x0 y0 : Nat} {transparent invert : Bool} {i : Instr} :
    i ∈ textCell column x0 y0 transparent invert ↔ DrawsCellPixel column x0 y0 transparent invert i := by
  simp only [textCell, List.mem_flatMap, List.mem_range, mem_textPixel, DrawsCellPixel]
  exact exists_congr fun c => by rw [← exists_and_left]

/-- The cell of character `k` of the text is 4 pixels further on for each character before it. -/
theorem mem_text {glyph : Nat → Nat → Byte} {chars : List Nat} {x0 y0 : Nat} {transparent invert : Bool} {i : Instr} :
    i ∈ text glyph chars x0 y0 transparent invert ↔
      ∃ k < chars.length, DrawsCellPixel (glyph (chars.getD k 0)) (x0 + 4 * k) y0 transparent invert i := by
  induction chars generalizing x0 with
  | nil => simp [text]
  | cons ch chars ih =>
    have hnext (k : Nat) : x0 + 4 + 4 * k = x0 + 4 * (k + 1) := by omega
    simp only [text, List.mem_append, mem_textCell, ih, List.length_cons, Nat.exists_lt_succ_left, List.getD_cons_zero,
      List.getD_cons_succ, Nat.mul_zero, Nat.add_zero, hnext]

/-- Settles O60: the cells one after another, each pixel by pixel. -/
theorem textDrawsItsCells : Obligations.TextDrawsItsCells := by
  intro glyph chars x0 y0 transparent invert i
  rw [mem_text]
  refine exists_congr fun k => ?_
  simp only [DrawsCellPixel, ← exists_and_left]

end Sys2Proof.Machine
end

section
/-! SUPPORT. Refusals and invariants of the exceptional states: the status a command word is answered with, what a refusal leaves,
HALTED, the idle block, and the completeness of the event sequences (spec 60_exceptions.md R160 to R176). -/

namespace Sys2Proof.Machine

/-! ### HALTED and the idle block (60_exceptions.md R162, R164, R176) -/

theorem exec_halted (i : Instr) {s : State} (hm : s.mode = .halted) : exec i s = .next (raise .halted s) := by
  cases i <;> exact perform_halted hm

theorem illegalCommand_halted {s : State} (hm : s.mode = .halted) : illegalCommand s = raise .halted s :=
  Host.Outcome.next.inj (perform_halted (body := raise .illegal) hm)

theorem illegalCommand_ready {s : State} (hm : s.mode = .ready) : illegalCommand s = raise .illegal s :=
  Host.Outcome.next.inj (perform_ready (body := raise .illegal) hm)

theorem step_of_undecoded {s : State} {cmd : Command} {now : Word} {rest : List HostMove} {e : Reject}
    (hc : s.cfg.admitted = true) (hp : s.port = .issue cmd now :: rest) (hd : decode cmd = .error e) :
    step s = .next (illegalCommand (acceptCommand now rest s)) := by
  unfold step
  rw [if_pos hc, hp]
  dsimp only
  rw [hd]

theorem step_halted {s : State} {cmd : Command} {now : Word} {rest : List HostMove} (hc : s.cfg.admitted = true)
    (hm : s.mode = .halted) (hp : s.port = .issue cmd now :: rest) :
    step s = .next (raise .halted (acceptCommand now rest s)) := by
  cases hd : decode cmd with
  | ok i => exact (step_of_decoded hc hp hd).trans (exec_halted i hm)
  | error e => exact (step_of_undecoded hc hp hd).trans (congrArg _ (illegalCommand_halted hm))

/-- Settles O48: the check of MODE comes first in every meaning and in the answer to an illegal word. -/
theorem haltedRefusesEveryWord : Obligations.HaltedRefusesEveryWord :=
  ⟨fun _ _ _ _ hc hm hp => step_halted hc hm hp, fun i _ hm => exec_halted i hm⟩

/-- Settles O50: the step with nothing on the port. -/
theorem idleBlockKeepsItsState : Obligations.IdleBlockKeepsItsState := by
  intro s hc hp
  unfold step
  rw [if_pos hc, hp]

/-! ### A block whose initialisation failed stays blank (60_exceptions.md R164) -/

/-- In HALTED the only effect is an answer. -/
theorem Effect.answered_of_halted {s t : State} (he : Effect s t) (hm : s.mode = .halted) : ∃ st d, t = respond st d s := by
  cases he with
  | answered st d => exact ⟨st, d, rfl⟩
  | drawn _ hr | dithered _ hr | swapped hr | copied hr | refreshed hr | cleared hr => cases hm.symm.trans hr

theorem Effect.haltedStaysBlank {s t : State} (he : Effect s t) (hs : s.HaltedStaysBlank) : t.HaltedStaysBlank := by
  intro hm
  rw [he.mode_eq] at hm
  obtain ⟨st, d, rfl⟩ := he.answered_of_halted hm
  exact hs hm

/-- Settles O54: neither an idle step nor a host store touches the block, and in HALTED a command is only answered. -/
theorem stepKeepsHaltedBlank : Obligations.StepKeepsHaltedBlank := by
  intro s t hs h
  obtain ⟨_, rfl⟩ | ⟨a, v, rest, _, rfl⟩ | ⟨cmd, now, rest, _, he⟩ := step_effect h
  · exact hs
  · exact hs
  · exact he.haltedStaysBlank hs

/-! ### Complete event sequences (60_exceptions.md R173, 42_framebuffer_manager.md R127 (c)) -/

theorem State.EventsComplete.append {s t : State} {es : List Event} (hs : s.EventsComplete) (hcfg : t.cfg = s.cfg)
    (hevents : t.events = s.events ++ es) (hes : CompleteSequence s.cfg es) : t.EventsComplete := by
  obtain ⟨seqs, hseqs, hall⟩ := hs
  refine ⟨seqs ++ [es], ?_, ?_⟩
  · rw [hevents, hseqs, hcfg, List.flatten_concat, List.cons_append]
  · rw [hcfg]
    exact List.forall_mem_append.2 ⟨hall, List.forall_mem_singleton.2 hes⟩

/-- A command emits nothing or one complete sequence, whose blit carries the whole of WB. -/
theorem Effect.eventsComplete {s t : State} (he : Effect s t) (hwb : s.wb.length = s.cfg.nb) (hs : s.EventsComplete) :
    t.EventsComplete := by
  cases he with
  | answered | drawn | dithered | copied => exact hs
  | swapped | refreshed => exact hs.append (es := frameEvents s.cfg s.wb) rfl rfl (.inr ⟨s.wb, hwb, rfl⟩)
  | cleared => exact hs.append (es := clearEvents) rfl rfl (.inl rfl)

/-- Settles O55: a step emits nothing, or what one command emits. -/
theorem stepKeepsEventsComplete : Obligations.StepKeepsEventsComplete := by
  intro s t hw hs h
  obtain ⟨_, rfl⟩ | ⟨a, v, rest, _, rfl⟩ | ⟨cmd, now, rest, _, he⟩ := step_effect h
  · exact hs
  · exact hs
  · exact he.eventsComplete hw.wb_length hs

/-! ### The status of the answer, by its cause (60_exceptions.md R161, R162) -/

theorem inPanel_eq_false_iff (cfg : Config) (x y : Word) :
    inPanel cfg x y = false ↔ cfg.W ≤ x.toNat ∨ cfg.H ≤ y.toNat := by
  rw [← Bool.not_eq_true, inPanel_iff, not_and_or, Nat.not_lt, Nat.not_lt]

theorem zoneValid_eq_false_iff (cfg : Config) (idx : Word) : zoneValid cfg idx = false ↔ cfg.nz ≤ idx.toNat := by
  rw [zoneValid, decide_eq_false_iff_not, Nat.not_lt]

/-- The range check of a command (60_exceptions.md R161): of the coordinates, of the zone index, or none. -/
def inRange (cfg : Config) : Instr → Bool
  | .drawpix888 x y _ | .drawpix565 x y _ | .getpix x y => inPanel cfg x y
  | .fillzone888 idx _ | .fillzone565 idx _ => zoneValid cfg idx
  | _ => true

theorem exec_out_of_range {i : Instr} {s : State} (hm : s.mode = .ready) (h : inRange s.cfg i = false) :
    exec i s = .next (raise .range s) := by
  cases i with
  | drawpix888 | drawpix565 | getpix | fillzone888 | fillzone565 =>
    exact (perform_ready hm).trans (congrArg _ (whenInRange_false h))
  | _ => cases h

theorem exec_in_range {i : Instr} {s : State} (hm : s.mode = .ready) (h : inRange s.cfg i = true) :
    ∃ t d, exec i s = .next t ∧ t.responses = s.responses ++ [{ status := .ok, data := d }] ∧ t.port = s.port := by
  cases i with
  | drawpix888 | drawpix565 | getpix | fillzone888 | fillzone565 =>
    exact ⟨_, _, (perform_ready hm).trans (congrArg _ (whenInRange_true h)), rfl, rfl⟩
  | update =>
    obtain hd | hd := Nat.lt_or_ge (s.now - s.last).toNat 33
    · exact ⟨_, _, exec_update_early hm hd, rfl, rfl⟩
    · exact ⟨_, _, exec_update_due hm hd, rfl, rfl⟩
  | _ => exact ⟨_, _, perform_ready hm, rfl, rfl⟩

/-- The commands that fail their range check are those that R161 names. -/
theorem inRange_eq_false_iff (cfg : Config) (i : Instr) : inRange cfg i = false ↔
    (∃ x y c, i = .drawpix888 x y c ∧ (cfg.W ≤ x.toNat ∨ cfg.H ≤ y.toNat)) ∨
    (∃ x y w, i = .drawpix565 x y w ∧ (cfg.W ≤ x.toNat ∨ cfg.H ≤ y.toNat)) ∨
    (∃ x y, i = .getpix x y ∧ (cfg.W ≤ x.toNat ∨ cfg.H ≤ y.toNat)) ∨
    (∃ idx a, i = .fillzone888 idx a ∧ cfg.nz ≤ idx.toNat) ∨
    (∃ idx a, i = .fillzone565 idx a ∧ cfg.nz ≤ idx.toNat) := by
  cases i <;> simp [inRange, inPanel_eq_false_iff, zoneValid_eq_false_iff]

/-- The status a command word is answered with, the causes in the order of R162. Neither memory nor the clock is among its arguments
(R163). -/
def answerStatus (mode : Mode) (cfg : Config) (cmd : Command) : Status :=
  match mode, decode cmd with
  | .halted, _ => .halted
  | .ready, .error _ => .illegal
  | .ready, .ok i => if inRange cfg i then .ok else .range

/-- Each status has one cause. -/
theorem answerStatus_causes (mode : Mode) (cfg : Config) (cmd : Command) :
    (answerStatus mode cfg cmd = .halted ↔ mode = .halted) ∧
    (answerStatus mode cfg cmd = .illegal ↔ mode = .ready ∧ ∃ e, decode cmd = .error e) ∧
    (answerStatus mode cfg cmd = .range ↔ mode = .ready ∧ ∃ i, decode cmd = .ok i ∧ inRange cfg i = false) ∧
    (answerStatus mode cfg cmd = .ok ↔ mode = .ready ∧ ∃ i, decode cmd = .ok i ∧ inRange cfg i = true) := by
  unfold answerStatus
  split
  · simp
  · next e hd => simp [hd]
  · next i hd => cases hr : inRange cfg i <;> simp [hd, hr]

section
variable {s : State} {cmd : Command} {now : Word} {rest : List HostMove}

/-- Any status but OK leaves the state that accepted the command as it was, but for the response (60_exceptions.md R163). -/
theorem step_refused (hc : s.cfg.admitted = true) (hp : s.port = .issue cmd now :: rest)
    (h : answerStatus s.mode s.cfg cmd ≠ .ok) :
    step s = .next (raise (answerStatus s.mode s.cfg cmd) (acceptCommand now rest s)) := by
  obtain ⟨hhalted, hillegal, hrange, -⟩ := answerStatus_causes s.mode s.cfg cmd
  cases hst : answerStatus s.mode s.cfg cmd with
  | ok => exact absurd hst h
  | halted => exact step_halted hc (hhalted.1 hst) hp
  | illegal =>
    obtain ⟨hm, e, hd⟩ := hillegal.1 hst
    exact (step_of_undecoded hc hp hd).trans (congrArg _ (illegalCommand_ready hm))
  | range =>
    obtain ⟨hm, i, hd, hr⟩ := hrange.1 hst
    exact (step_of_decoded hc hp hd).trans (exec_out_of_range hm hr)

theorem step_performed (hc : s.cfg.admitted = true) (hp : s.port = .issue cmd now :: rest)
    (h : answerStatus s.mode s.cfg cmd = .ok) :
    ∃ t d, step s = .next t ∧ t.responses = s.responses ++ [{ status := .ok, data := d }] ∧ t.port = rest := by
  obtain ⟨-, -, -, hok⟩ := answerStatus_causes s.mode s.cfg cmd
  obtain ⟨hm, i, hd, hr⟩ := hok.1 h
  rw [step_of_decoded hc hp hd]
  exact exec_in_range (s := acceptCommand now rest s) hm hr

/-- Every command word gets exactly one response, of the status its cause gives, and of data 0 if that is not OK. -/
theorem step_response (hc : s.cfg.admitted = true) (hp : s.port = .issue cmd now :: rest) :
    ∃ t r, step s = .next t ∧ t.responses = s.responses ++ [r] ∧ t.port = rest ∧
      r.status = answerStatus s.mode s.cfg cmd ∧ (r.status ≠ .ok → r.data = 0) := by
  by_cases h : answerStatus s.mode s.cfg cmd = .ok
  · obtain ⟨t, d, ht, hresp, hport⟩ := step_performed hc hp h
    exact ⟨t, _, ht, hresp, hport, h.symm, absurd rfl⟩
  · exact ⟨_, _, step_refused hc hp h, rfl, rfl, rfl, fun _ => rfl⟩

end

/-! ### The code of each refusal (30_encoding.md R69) -/

theorem Status.code_toNat_inj {a b : Status} : a.code.toNat = b.code.toNat ↔ a = b := by
  cases a <;> cases b <;> decide

theorem Status.code_toNat_le (a : Status) : a.code.toNat ≤ 3 := by
  cases a <;> decide

theorem decode_error_iff_no_row (cmd : Command) :
    (∃ e, decode cmd = .error e) ↔ ∀ row ∈ opcodeTable, cmd &&& row.mask ≠ row.matchBits := by
  have hrow := not_congr (decode_ok_iff_row_matches cmd)
  simp only [not_exists, not_and] at hrow
  rw [← hrow]
  cases decode cmd <;> simp

/-- Settles O46: the code is that of `answerStatus`, whose causes are those of R161 in the order of R162. -/
theorem eachRefusalHasItsCause : Obligations.EachRefusalHasItsCause := by
  intro s cmd now rest hc hp
  obtain ⟨t, r, ht, hresp, hport, hst, hdata⟩ := step_response hc hp
  obtain ⟨hhalted, hillegal, hrange, -⟩ := answerStatus_causes s.mode s.cfg cmd
  rw [← hst] at hhalted hillegal hrange
  obtain ⟨hcode, hbyte⟩ := response_word_fields r
  refine ⟨t, r, ht, hresp, hport, ?_⟩
  dsimp only
  rw [hcode, hbyte]
  refine ⟨?_, ?_, ?_, Status.code_toNat_le _, fun hne => ?_⟩
  · exact (Status.code_toNat_inj (b := .halted)).trans hhalted
  · rw [← decode_error_iff_no_row]
    exact (Status.code_toNat_inj (b := .illegal)).trans hillegal
  · refine (Status.code_toNat_inj (b := .range)).trans (hrange.trans (and_congr_right fun _ => ?_))
    simp only [inRange_eq_false_iff]
    cases decode cmd <;> simp
  · rw [hdata (mt (Status.code_toNat_inj (b := .ok)).2 hne)]
    rfl

/-- Settles O47: a refusal is decided by MODE, the configuration and the word alone, and only appends its response. -/
theorem refusalLeavesEverything : Obligations.RefusalLeavesEverything := by
  intro s t cmd now rest r hp ht hresp hr
  obtain ⟨hc, _⟩ := step_cases ht
  by_cases hst : answerStatus s.mode s.cfg cmd = .ok
  · obtain ⟨t', d, ht', hresp', _⟩ := step_performed hc hp hst
    obtain rfl := Host.Outcome.next.inj (ht.symm.trans ht')
    obtain rfl : r = _ := by simpa using hresp.symm.trans hresp'
    exact absurd rfl hr
  · obtain rfl := Host.Outcome.next.inj (ht.symm.trans (step_refused hc hp hst))
    obtain rfl : _ = r := by simpa using hresp
    exact ⟨rfl, fun m n => step_refused (s := { s with mem := m, port := .issue cmd n :: rest }) hc rfl hst⟩

end Sys2Proof.Machine
end

section
/-! SUPPORT. Reset, the clock and progress: what a reset state is, when the throttle compare passes in true time and after a reset, and
that an admitted machine always has a next state (spec 70_reset_and_hazards.md R180 to R190). -/

namespace Sys2Proof.Machine

/-! ### The throttle compare (70_reset_and_hazards.md R189, R190) -/

/-- The clock's difference modulo 2^32 is the true time elapsed, as long as that is less than 2^32 ms. -/
theorem toNat_ofNat_sub_of_lt {t0 t1 : Nat} (h01 : t0 ≤ t1) (h : t1 < t0 + 2 ^ 32) :
    (BitVec.ofNat 32 t1 - BitVec.ofNat 32 t0).toNat = t1 - t0 := by
  rw [BitVec.toNat_sub, BitVec.toNat_ofNat, BitVec.toNat_ofNat]
  omega

/-- Settles O25: the compare sees the true time elapsed, and either side of it is one answer of UPDATE. -/
theorem throttleIsExactAcrossClockWrap : Obligations.ThrottleIsExactAcrossClockWrap := by
  intro s t0 t1 hm h01 hlt hlast hnow
  have helapsed : (s.now - s.last).toNat = t1 - t0 := by
    rw [hlast, hnow, toNat_ofNat_sub_of_lt h01 hlt]
  rw [← helapsed]
  obtain hd | hd := Nat.lt_or_ge (s.now - s.last).toNat 33
  · exact ⟨_, exec_update_early hm hd, fun hdue => absurd hdue (Nat.not_le.2 hd), fun _ => ⟨rfl, rfl, rfl⟩⟩
  · exact ⟨_, exec_update_due hm hd, fun _ => ⟨rfl, rfl, by simp⟩, fun hearly => absurd hd (Nat.not_le.2 hearly)⟩

/-- Settles O26: with LAST at 0 the compare is of the clock itself, and a reset that succeeded is READY with LAST at 0. -/
theorem firstUpdateAfterResetWaits : Obligations.FirstUpdateAfterResetWaits := by
  refine ⟨fun s hm hlast => ?_, fun cfg mem now => ⟨rfl, rfl, rfl⟩⟩
  have helapsed : (s.now - s.last).toNat = s.now.toNat := by rw [hlast, sub_zero]
  rw [← helapsed]
  exact ⟨exec_update_early hm, exec_update_due hm⟩

/-! ### Progress (70_reset_and_hazards.md R184) -/

theorem step_of_not_admitted {s : State} (hc : s.cfg.admitted = false) : step s = .refused .configNotAdmitted :=
  if_neg (Bool.eq_false_iff.1 hc)

/-- Settles O49, by the next move of the host: none, a store or a command. -/
theorem stepAlwaysCompletesWhenAdmitted : Obligations.StepAlwaysCompletesWhenAdmitted := by
  refine fun s => ⟨fun hc => ?_, step_of_not_admitted⟩
  match hp : s.port with
  | [] => exact ⟨s, idleBlockKeepsItsState s hc hp⟩
  | .store a v :: rest => exact ⟨_, step_of_store hc hp⟩
  | .issue cmd now :: rest =>
    obtain ⟨t, -, ht, -⟩ := step_response hc hp
    exact ⟨t, ht⟩

/-! ### The reset state (70_reset_and_hazards.md R180, 10_state.md R34) -/

section
variable {cfg : Config} (ok : Bool) {mem : Memory} (now : Word)

theorem resetWith_wellSized (hc : cfg.admitted = true) (hmem : Memory.wf mem = true) :
    (State.resetWith cfg ok mem now).WellSized :=
  ⟨hc, List.length_replicate, List.length_replicate, hmem⟩

theorem resetWith_haltedStaysBlank : (State.resetWith cfg ok mem now).HaltedStaysBlank :=
  fun _ => ⟨rfl, rfl, rfl, rfl⟩

/-- T_INIT, and no sequence after it. -/
theorem resetWith_eventsComplete : (State.resetWith cfg ok mem now).EventsComplete :=
  ⟨[], rfl, fun _ hes => absurd hes List.not_mem_nil⟩

/-- No blit yet, so AB is to be blank. -/
theorem resetWith_activeIsLastBlit : (State.resetWith cfg ok mem now).ActiveIsLastBlit := rfl

end

theorem resetConfig_admitted : Config.resetConfig.admitted = true := by decide

/-- Settles O57: a byte of a reset buffer is one of NB zeros, and MODE follows the transport's answer. -/
theorem resetLeavesTheStatedValues : Obligations.ResetLeavesTheStatedValues := by
  intro cfg ok mem now
  have hbyte : ∀ i, i < cfg.nb → (List.replicate cfg.nb (0 : Byte))[i]? = some 0 :=
    fun _ hi => List.getElem?_replicate_of_lt hi
  exact ⟨fun i hi => ⟨hbyte i hi, hbyte i hi⟩, List.length_replicate, List.length_replicate, rfl, rfl,
    fun hok => if_pos hok, fun hok => if_neg (Bool.eq_false_iff.1 hok), rfl, rfl⟩

/-- Settles O58: the four invariants of a reset state, and the configuration of `State.reset` is admitted. -/
theorem resetMeetsEveryInvariant : Obligations.ResetMeetsEveryInvariant :=
  ⟨fun _ ok _ now hc hmem => ⟨resetWith_wellSized ok now hc hmem, resetWith_haltedStaysBlank ok now,
    resetWith_eventsComplete ok now, resetWith_activeIsLastBlit ok now⟩,
   resetWith_wellSized true _ resetConfig_admitted rfl, rfl⟩

end Sys2Proof.Machine
end
